-- ==== Sys2Proof/Word.lean ====
section
/-! DEFINITION. The words of the block: bytes, 32-bit register values, byte strings, cipher keys and cipher blocks. -/

namespace Sys2Proof

/-- A byte: an 8-bit unsigned value (00_scope.md R11). -/
abbrev Byte := BitVec 8

/-- A register value or a command word: 32 bits, unsigned (00_scope.md R10, 30_encoding.md R90). -/
abbrev Word := BitVec 32

/-- A byte string: a finite sequence of bytes, byte 0 first (00_scope.md R11). -/
abbrev Bytes := List Byte

/-- The key store's contents and the cipher's key argument: KEY_LEN = 16 bytes, byte 0 first (00_scope.md R7, 10_state.md R42). -/
abbrev Key := Vector Byte 16

/-- A cipher block: BLOCK = 16 bytes, byte 0 first (00_scope.md R7, 42_cipher.md R170). -/
abbrev Block := Vector Byte 16

end Sys2Proof
end

