-- ==== Sys2Proof/Syntax.lean ====
section
/-! DEFINITION. The commands (one constructor per row of spec/opcode_table.json) and what reaches the block from outside: the
host's bus transactions and the platform's reset. -/

namespace Sys2Proof

/-- The commands of 30_encoding.md R93. A command word carries no operand (R91): every operand is a register or a buffer. -/
inductive Instr where
  | nop      -- no operation (40_command_lifecycle.md R134)
  | crc32    -- checksum of IN (41_checksum.md R151)
  | encrypt  -- pad and ECB-encrypt IN (42_cipher.md R174)
  | decrypt  -- ECB-decrypt IN and strip padding (42_cipher.md R177)
  | build    -- build a request frame (43_frame_codec.md R201)
  | parse    -- parse a response frame (43_frame_codec.md R206)
  deriving DecidableEq, Repr

/-- The width of a host access (20_memory.md R64, R65). -/
inductive Width where
  | w8
  | w16
  | w32
  deriving DecidableEq, Repr

/-- The number of bytes an access of this width covers. -/
def Width.bytes : Width → Nat
  | .w8 => 1
  | .w16 => 2
  | .w32 => 4

/-- One bus transaction of the host: kind, width, window offset and, for a write, the data in its low bits (30_encoding.md R104). -/
inductive Access where
  | read (w : Width) (off : Nat)
  | write (w : Width) (off : Nat) (data : Word)
  deriving DecidableEq, Repr

/-- What reaches the block from outside: a host transaction; the host's POLL, which repeats a 32-bit read until
`(t & mask) = value` (30_encoding.md R104); the platform's reset (70_reset_and_hazards.md R290). -/
inductive Input where
  | access (a : Access)
  | poll (off : Nat) (mask value : Word)
  | reset
  deriving DecidableEq, Repr

end Sys2Proof
end

