-- ==== Sys2Proof/WellFormed.lean ====
section
/-! DEFINITION. Which commands and which host transactions are well formed. -/

namespace Sys2Proof

/-- A command has no operand field (30_encoding.md R90, R91), so every command is well formed; what can be ill formed is a
command WORD, which the decoder rejects by name. -/
def Instr.wellFormed : Instr → Bool
  | .nop => true
  | .crc32 => true
  | .encrypt => true
  | .decrypt => true
  | .build => true
  | .parse => true

/-- The size of the block's window in bytes (20_memory.md R61). -/
def windowSize : Nat := 0x3000

/-- A host transaction addressed to the block: its offset lies in the window (20_memory.md R61), and a write's data fits its
width (30_encoding.md R104). Width and alignment are no part of this: the block answers every width at every offset (R63 to R65). -/
def Access.wellFormed : Access → Bool
  | .read _ off => off < windowSize
  | .write w off data => off < windowSize && data.toNat < 2 ^ (8 * w.bytes)

/-- An input the block can meet: a well-formed transaction, a POLL of an offset of the window, a reset. -/
def Input.wellFormed : Input → Bool
  | .access a => a.wellFormed
  | .poll off _ _ => off < windowSize
  | .reset => true

end Sys2Proof
end

