-- ==== Sys2Proof/Decode.lean ====
section
/-! DEFINITION. Decoding and encoding of command words, from 30_encoding.md R90 to R94 and the opcode map. -/

namespace Sys2Proof

/-- Why bits are no command. -/
inductive DecodeError where
  /-- A command word is exactly 4 bytes (30_encoding.md R90, R97). -/
  | wrongLength
  /-- RES[31:4] is not 0 (30_encoding.md R92). -/
  | reservedBits
  /-- RES is 0 and OPCODE is one of 0x6 to 0xF (30_encoding.md R94). -/
  | reservedOpcode (opcode : Nat)
  deriving DecidableEq, Repr

/-- The OPCODE field, bits [3:0] (30_encoding.md R90). -/
def opcodeOf (w : Word) : BitVec 4 := w.extractLsb' 0 4

/-- The RES field, bits [31:4] (30_encoding.md R90). -/
def reservedOf (w : Word) : BitVec 28 := w.extractLsb' 4 28

/-- The command a word stands for. RES is tested before OPCODE is looked at (40_command_lifecycle.md R132, R135). -/
def decode (w : Word) : Except DecodeError Instr :=
  if reservedOf w ≠ 0 then .error .reservedBits
  else match (opcodeOf w).toNat with
    | 0 => .ok .nop
    | 1 => .ok .crc32
    | 2 => .ok .encrypt
    | 3 => .ok .decrypt
    | 4 => .ok .build
    | 5 => .ok .parse
    | n => .error (.reservedOpcode n)

/-- The word the four bus lanes of a 32-bit access carry, lowest offset first: the bus is little-endian (20_memory.md R67). -/
def wordOfLanes (b0 b1 b2 b3 : Byte) : Word := b3 ++ b2 ++ b1 ++ b0

/-- The four bus lanes of a word, lowest offset first (20_memory.md R67). -/
def lanesOfWord (w : Word) : List Byte :=
  [w.extractLsb' 0 8, w.extractLsb' 8 8, w.extractLsb' 16 8, w.extractLsb' 24 8]

/-- Decode a command from the bytes of its one 32-bit write, lowest lane first; total on any bytes. -/
def decodeBytes : List Byte → Except DecodeError Instr
  | [b0, b1, b2, b3] => decode (wordOfLanes b0 b1 b2 b3)
  | _ => .error .wrongLength

/-- The word that stands for a command: its match value (30_encoding.md R93). -/
def encode : Instr → Word
  | .nop => 0x00000000
  | .crc32 => 0x00000001
  | .encrypt => 0x00000002
  | .decrypt => 0x00000003
  | .build => 0x00000004
  | .parse => 0x00000005

/-- A command's bytes as the bus carries them, lowest lane first. -/
def encodeBytes (i : Instr) : List Byte := lanesOfWord (encode i)

/-- The command word the opcode table's numbering gives: its low `nbits` bits are `w`, every bit above is 0. -/
def tableWord (nbits w : Nat) : Word := BitVec.ofNat 32 (w % 2 ^ nbits)

/-- The command the decoder reads from a word of the opcode table; the word is laid out in bus lanes first. A word of more
than 32 bits is no command (30_encoding.md R90). -/
def decodeTableWord (nbits w : Nat) : Option Instr :=
  if nbits ≤ 32 then (decodeBytes (lanesOfWord (tableWord nbits w))).toOption else none

end Sys2Proof
end

