-- ==== Sys2Proof/Config.lean ====
section
/-! DEFINITION. What the source leaves open: the parameters of 00_scope.md R8 and the unspecified values (draws). A constant
with no body is a free value: nothing in Lean can evaluate it, so what is proved holds whatever it is. -/

namespace Sys2Proof

/-- The default of the parameter BUF_SIZE (00_scope.md R8: 2064 <= BUF_SIZE <= 4096, default 4096). Only `State.reset` takes it:
every meaning reads BUF_SIZE from the PARAM register in the state, so that a statement about every state is about every
BUF_SIZE. DESIGN CHOICE, unsafe for statements about the reset state alone (log 1). -/
def Config.defaultBufSize : Nat := 4096

/-- The parameter BlockCipher of 00_scope.md R8: for every key a permutation of the 16-byte blocks together with its inverse,
which is all the spec says of `(E, D)` (42_cipher.md R170). A free value: safe (log 2). -/
opaque Config.blockCipher : Key → Equiv.Perm Block

/-- The parameter LATENCY of 00_scope.md R8: how long the command accepted at event `k` stays pending (40_command_lifecycle.md
R131). Finite, otherwise free. 70_reset_and_hazards.md R300 lets it depend on the command and its input length; that it is a function
of the event's number alone is a DESIGN CHOICE: safe for a claim about one state's run, unsafe for one that compares the delays of two
states at one event number (log 4). -/
opaque Config.latency : Nat → Nat

/-- A draw (20_memory.md R70, R71, R73; 40_command_lifecycle.md R138): the unspecified value of the byte at a window offset as
event `k` sees it. That it is a function of the event's number and the offset alone is a DESIGN CHOICE: safe for a claim about one
state's run, unsafe for one that compares the draws of two states at one event number (log 3). -/
opaque Config.draw : Nat → Nat → Byte

end Sys2Proof
end

