-- ==== Sys2Proof/Machine/State.lean ====
section
/-! DEFINITION. The state of the block as the spec gives it (10_state.md R20), why a step can stop, and the state after reset. -/

namespace Sys2Proof.Machine

open Sys2Proof

/-- The error codes of 60_exceptions.md R261. No other value of STATUS.ERR is ever written (10_state.md R31), so no other
value is representable (log 11). -/
inductive ErrCode where
  | none           -- 0: the command completed successfully
  | illegalCmd     -- 1
  | inLenRange     -- 2
  | outOverflow    -- 3
  | badVersion     -- 4
  | decryptLen     -- 5
  | frameShort     -- 6
  | framePrefix    -- 7
  | frameLength    -- 8
  | frameUnderflow -- 9
  deriving DecidableEq, Repr

/-- Why the machine stops. The block itself signals no bus error and raises no trap (60_exceptions.md R260). -/
inductive Fault where
  /-- A host access at window offset `off` >= 0x3000, which is outside the block (20_memory.md R61). Raised by the bus
  operations only. Safe: the model stops where the platform decides (log 7). -/
  | outsideWindow (off : Nat)
  deriving DecidableEq, Repr

/-- Why a command has no meaning here. -/
inductive Refusal where
  /-- The command's arm of `exec` has no meaning yet. No arm answers so. Safe. -/
  | notModelled (mnemonic : String)
  deriving DecidableEq, Repr

/-- The bytes of IN and OUT, keyed by window offset, in rising order of offset. An offset that is not listed holds no value:
the byte is unwritten since reset (10_state.md R43, R44; 70_reset_and_hazards.md R291; log 10). -/
abbrev Memory := List Host.Cell

/-- The one canonical form of a memory: offsets strictly rise. An unlisted offset has no value, so no entry equals what it
reads as. -/
abbrev Memory.wf (m : Memory) : Prop := List.Pairwise (fun a b : Host.Cell => a.1 < b.1) m

/-- The state of the block: every piece of state of 10_state.md R20, then the model's own four fields. -/
structure State where
  /-- CTRL.VERSION, bits [1:0] (10_state.md R23, R24): all four values are stored as written. -/
  version : BitVec 2
  /-- CTRL.IE, bit [8] (10_state.md R23): the completion interrupt's enable. -/
  ie : Bool
  /-- STATUS.DONE, bit [1] (10_state.md R28). -/
  done : Bool
  /-- STATUS.FALLBACK, bit [2] (10_state.md R29). -/
  fallback : Bool
  /-- STATUS.WERR, bit [3] (10_state.md R30). -/
  werr : Bool
  /-- STATUS.ERR, bits [11:8] (10_state.md R31). -/
  err : ErrCode
  /-- IN_LEN (10_state.md R32). -/
  inLen : Word
  /-- OUT_LEN (10_state.md R33). -/
  outLen : Word
  /-- SEQ (10_state.md R34). -/
  seq : Word
  /-- CRC (10_state.md R35). -/
  crc : Word
  /-- RETCODE (10_state.md R36). -/
  retcode : Word
  /-- RX_SEQ (10_state.md R37). -/
  rxSeq : Word
  /-- RX_CMD (10_state.md R38). -/
  rxCmd : Word
  /-- RX_CRC (10_state.md R39). -/
  rxCrc : Word
  /-- FRAME_LEN (10_state.md R40). -/
  frameLen : Word
  /-- PARAM (10_state.md R41): the constant BUF_SIZE of this part. Nothing writes it (log 1). -/
  param : Word
  /-- KEY[0..15] (10_state.md R42). -/
  key : Key
  /-- The IN and OUT buffers (10_state.md R43, R44), keyed by window offset. -/
  mem : Memory
  /-- PEND (10_state.md R45): empty, or the pending command word. STATUS.BUSY is 1 exactly when it is not empty (R27). -/
  pend : Option Word
  /-- The model's own: how many turns the host and the platform have before the pending command's engine step (LATENCY,
  40_command_lifecycle.md R131; log 4). -/
  delay : Nat
  /-- The model's own: what has yet to reach the block from outside, oldest first (20_memory.md R76; log 5). -/
  inputs : List Input
  /-- The model's own: the data the block answered to the latest host read (log 6). -/
  rdata : Option Word
  /-- The model's own: the number of the next event that may draw unspecified values (log 3). -/
  draws : Nat
  deriving DecidableEq, Repr

/-- The block right after reset (70_reset_and_hazards.md R290, R291), with the default BUF_SIZE (log 1), nothing waiting
outside and no read answered yet. -/
def State.reset : State where
  version := 0
  ie := false
  done := false
  fallback := false
  werr := false
  err := .none
  inLen := 0
  outLen := 0
  seq := 1
  crc := 0
  retcode := 0
  rxSeq := 0
  rxCmd := 0
  rxCrc := 0
  frameLen := 0
  param := BitVec.ofNat 32 Config.defaultBufSize
  key := Vector.replicate 16 0
  mem := []
  pend := none
  delay := 0
  inputs := []
  rdata := none
  draws := 0

end Sys2Proof.Machine
end

