-- ==== Sys2Proof/Machine/Flags.lean ====
section
/-! DEFINITION. The STATUS and CTRL registers as the host sees them, the error codes, and the interrupt output. The block has
no condition codes besides the STATUS fields (10_state.md R47). -/

namespace Sys2Proof.Machine

open Sys2Proof

/-- The number of an error code in STATUS.ERR[11:8] (60_exceptions.md R261). -/
def ErrCode.code : ErrCode → BitVec 4
  | .none => 0
  | .illegalCmd => 1
  | .inLenRange => 2
  | .outOverflow => 3
  | .badVersion => 4
  | .decryptLen => 5
  | .frameShort => 6
  | .framePrefix => 7
  | .frameLength => 8
  | .frameUnderflow => 9

/-- STATUS.BUSY: 1 exactly when PEND holds a command (10_state.md R27). -/
def State.busy (s : State) : Bool := s.pend.isSome

/-- A bit as a one-bit field. -/
def bitField (b : Bool) : BitVec 1 := BitVec.ofBool b

/-- STATUS as a 32-bit read gives it: ERR in [11:8], WERR in [3], FALLBACK in [2], DONE in [1], BUSY in [0], reserved bits 0
(10_state.md R26). -/
def State.statusWord (s : State) : Word :=
  (0 : BitVec 20) ++ s.err.code ++ (0 : BitVec 4) ++ bitField s.werr ++ bitField s.fallback ++ bitField s.done
    ++ bitField s.busy

/-- CTRL as a 32-bit read gives it: IE in [8], VERSION in [1:0], reserved bits 0 (10_state.md R23). -/
def State.ctrlWord (s : State) : Word :=
  (0 : BitVec 23) ++ bitField s.ie ++ (0 : BitVec 6) ++ s.version

/-- A 32-bit write to CTRL: VERSION and IE are stored, writes of reserved bits are ignored (10_state.md R23). -/
def State.writeCtrl (s : State) (v : Word) : State :=
  { s with version := v.extractLsb' 0 2, ie := v.getLsbD 8 }

/-- A 32-bit write to STATUS, obeyed at any time: a 1 in bit 1 clears DONE, a 1 in bit 3 clears WERR, nothing else changes
(10_state.md R26, 40_command_lifecycle.md R139). -/
def State.writeStatus (s : State) (v : Word) : State :=
  { s with done := s.done && !v.getLsbD 1, werr := s.werr && !v.getLsbD 3 }

/-- The interrupt output, a level: `irq = CTRL.IE & STATUS.DONE` (10_state.md R46, 60_exceptions.md R266). -/
def State.irq (s : State) : Bool := s.ie && s.done

end Sys2Proof.Machine
end

