-- ==== Sys2Proof/Machine/Operands.lean ====
section
/-! DEFINITION. The operand forms: byte strings, big-endian fields, the constants of the wire format, and the
version-dependent constants. A command word carries no operand (30_encoding.md R91): these are all the block reads and assembles. -/

namespace Sys2Proof.Machine

open Sys2Proof

/-- `s[a .. b)`: the bytes of indices a to b-1 (00_scope.md R11). -/
def slice (s : Bytes) (a b : Nat) : Bytes := (s.drop a).take (b - a)

/-- `zeros(n)` (00_scope.md R11). -/
def zeros (n : Nat) : Bytes := List.replicate n 0

/-- `be32(s)`: the big-endian value of a 4-byte string (00_scope.md R12). -/
def be32 (s : Bytes) : Word := s.getD 0 0 ++ s.getD 1 0 ++ s.getD 2 0 ++ s.getD 3 0

/-- `BE32(v)`: the 4 bytes of a 32-bit value, most significant first (00_scope.md R12). -/
def toBE32 (v : Word) : Bytes :=
  [v.extractLsb' 24 8, v.extractLsb' 16 8, v.extractLsb' 8 8, v.extractLsb' 0 8]

/-- The low byte lane first value of a byte string, at most four bytes of it: bits [8j+7:8j] carry byte j (20_memory.md R67). -/
def leWord : Bytes → Word
  | [] => 0
  | b :: bs => b.setWidth 32 ||| (leWord bs <<< 8)

/-- Byte lane j of a word (20_memory.md R67). -/
def laneOf (v : Word) (j : Nat) : Byte := v.extractLsb' (8 * j) 8

/-- BLOCK: the cipher's block size in bytes (00_scope.md R7). -/
def blockLen : Nat := 16

/-- HDR_LEN: the response header's length (00_scope.md R7). -/
def hdrLen : Nat := 16

/-- MAX_RESP_LEN: the largest accepted response length field (00_scope.md R7). -/
def maxRespLen : Nat := 2048

/-- The bytes of the CRC and suffix fields that follow a payload, which the length fields count (30_encoding.md R99, R103). -/
def trailerLen : Nat := 8

/-- PREFIX (00_scope.md R7, 30_encoding.md R98). -/
def prefixBytes : Bytes := [0x00, 0x00, 0x55, 0xAA]

/-- SUFFIX (00_scope.md R7, 30_encoding.md R98). -/
def suffixBytes : Bytes := [0x00, 0x00, 0xAA, 0x55]

/-- The byte 0x7B, the left brace the plaintext-JSON scan looks for (43_frame_codec.md R205). -/
def braceByte : Byte := 0x7B

/-- The offset of the IN buffer in the window (20_memory.md R62). -/
def inBase : Nat := 0x1000

/-- The offset of the OUT buffer in the window (20_memory.md R62). -/
def outBase : Nat := 0x2000

/-- The protocol versions: a closed set (00_scope.md R2). -/
inductive Version where
  | v33
  | v34
  | v35
  deriving DecidableEq, Repr

/-- `VER(x)`: the version a value of CTRL.VERSION names; 3 names none (43_frame_codec.md R200, 10_state.md R24). -/
def versionOf (x : BitVec 2) : Option Version :=
  match x.toNat with
  | 0 => some .v33
  | 1 => some .v34
  | 2 => some .v35
  | _ => none

/-- `CMD_CODE(v)`: the command field of a request (43_frame_codec.md R200). -/
def cmdCode : Version → Word
  | .v33 => 0x0000000A
  | .v34 => 0x00000010
  | .v35 => 0x00000010

/-- `VH(v)`: the version header of a request (30_encoding.md R101, 43_frame_codec.md R200). -/
def versionHeader : Version → Bytes
  | .v33 => []
  | .v34 => [0x33, 0x2E, 0x34] ++ [0x00] ++ zeros 12
  | .v35 => [0x33, 0x2E, 0x35] ++ [0x00] ++ zeros 12

/-- `HDR_OUT(v)`: the bytes of a request before its payload (43_frame_codec.md R200). -/
def hdrOut (v : Version) : Nat := 12 + (versionHeader v).length + 4

/-- `RC_OFF(v)`: the length of a response's return code (00_scope.md R7, 43_frame_codec.md R200). -/
def rcOff : Version → Nat
  | .v33 => 0
  | .v34 => 4
  | .v35 => 4

end Sys2Proof.Machine
end

