-- ==== Sys2Proof/Machine/Ops.lean ====
section
/-! DEFINITION. The named operations over memory and registers: reading and writing bytes, the engine's memory primitives, the
acceptance of a command, its two endings (success, and the one error completion), and the reset. -/

namespace Sys2Proof.Machine

open Sys2Proof

/-- The byte at a window offset, or no value where nothing has been written since reset (10_state.md R43, R44). -/
def Memory.read : Memory → Nat → Option Byte
  | [], _ => none
  | c :: m, a => if c.1 = a then some c.2 else Memory.read m a

/-- Write one byte, keeping the offsets in rising order. -/
def Memory.write : Memory → Nat → Byte → Memory
  | [], a, b => [(a, b)]
  | c :: m, a, b =>
    if a < c.1 then (a, b) :: c :: m
    else if a = c.1 then (a, b) :: m
    else c :: Memory.write m a b

/-- Write a byte string at consecutive offsets from `a` upward. -/
def Memory.writeBytes : Memory → Nat → Bytes → Memory
  | m, _, [] => m
  | m, a, b :: bs => Memory.writeBytes (m.write a b) (a + 1) bs

/-- BUF_SIZE, as PARAM holds it (10_state.md R41). -/
def State.bufSize (s : State) : Nat := s.param.toNat

/-- The byte at a window offset as the current event reads it: the stored byte, or a draw where the byte is unwritten
(20_memory.md R70, R71, R73). -/
def State.readByte (s : State) (a : Nat) : Byte := (s.mem.read a).getD (Config.draw s.draws a)

/-- `MemRead(addr, n)` (00_scope.md R13, 20_memory.md R72, R73). -/
def State.memRead (s : State) (addr n : Nat) : Bytes := (List.range n).map fun i => s.readByte (addr + i)

/-- `MemWrite(addr, len(bs), bs)` (00_scope.md R13, 20_memory.md R72). -/
def State.memWrite (s : State) (addr : Nat) (bs : Bytes) : State := { s with mem := s.mem.writeBytes addr bs }

/-- The command's input `IN[0 .. IN_LEN)` (10_state.md R32). -/
def State.input (s : State) : Bytes := s.memRead inBase s.inLen.toNat

/-- The condition CHECK_IN_LEN passes on: `IN_LEN <= BUF_SIZE` (40_command_lifecycle.md R136). -/
abbrev State.inLenFits (s : State) : Prop := s.inLen.toNat ≤ s.bufSize

/-- The result writes ENCRYPT, DECRYPT, BUILD and PARSE share: `OUT[0 .. len(bs)) <- bs` and `OUT_LEN <- len(bs)`
(10_state.md R33, R44). -/
def State.storeOut (s : State) (bs : Bytes) : State :=
  { s.memWrite outBase bs with outLen := BitVec.ofNat 32 bs.length }

/-- `complete()`: the successful end of a command (40_command_lifecycle.md R133). The engine step was one event that may have
drawn values, so the event number advances (log 3). -/
def State.complete (s : State) : State :=
  { s with pend := none, done := true, err := .none, draws := s.draws + 1 }

/-- `raise Error(code)`: the error completion, the block's only exceptional outcome (60_exceptions.md R260, R262). Only STATUS
and PEND change; nothing is saved, because nothing has to be restored (R268). -/
def State.raise (s : State) (code : ErrCode) : State :=
  { s with pend := none, done := true, err := code, draws := s.draws + 1 }

/-- A command word becomes pending: the transition of 40_command_lifecycle.md R130. `turns` is how long it will stay pending. -/
def State.issue (s : State) (w : Word) (turns : Nat) : State :=
  { s with pend := some w, done := false, err := .none, fallback := false, delay := turns }

/-- Acceptance of a CMD write while idle (40_command_lifecycle.md R130): every word is accepted, the illegal ones too. How long
it stays pending is the free LATENCY, which 70_reset_and_hazards.md R300 lets depend on the command and its input length; taking it
from the event's number alone is a DESIGN CHOICE (log 4). -/
def State.accept (s : State) (w : Word) : State :=
  { s.issue w (Config.latency s.draws) with draws := s.draws + 1 }

/-- The platform's reset (70_reset_and_hazards.md R290, R291, R293): every register takes its reset value, every buffer byte
becomes unwritten, a pending command is abandoned. PARAM is a constant (10_state.md R41), and what lies outside the block (the
inputs still to come, the last answer, the event number) is no part of the reset (log 5). -/
def State.platformReset (s : State) : State :=
  { State.reset with param := s.param, inputs := s.inputs, rdata := s.rdata, draws := s.draws }

end Sys2Proof.Machine
end

