-- ==== Sys2Proof/Machine/Bus.lean ====
section
/-! DEFINITION. What reaches the block from outside: the host's reads and writes of the window (20_memory.md), the busy rules
(40_command_lifecycle.md R137 to R139), POLL, and the platform's reset. -/

namespace Sys2Proof.Machine

open Sys2Proof

/-- The regions of the window (20_memory.md R62). -/
inductive Region where
  | register
  | key
  | inBuf
  | outBuf
  | unmapped
  deriving DecidableEq, Repr

/-- The end of the register region (20_memory.md R62). -/
def registersEnd : Nat := 0x34

/-- The offset of KEY[0] (10_state.md R42). -/
def keyBase : Nat := 0x40

/-- The offset of STATUS (10_state.md R22). -/
def statusOffset : Nat := 0x008

/-- The region of the byte at a window offset, for a given BUF_SIZE (20_memory.md R62). -/
def regionOf (bufSize off : Nat) : Region :=
  if off < registersEnd then .register
  else if keyBase ≤ off ∧ off < keyBase + 16 then .key
  else if inBase ≤ off ∧ off < inBase + bufSize then .inBuf
  else if outBase ≤ off ∧ off < outBase + bufSize then .outBuf
  else .unmapped

/-- The draw a busy read of a 32-bit result register gives: one draw for each of its bytes (40_command_lifecycle.md R138). -/
def State.drawWord (s : State) (off : Nat) : Word :=
  leWord ((List.range 4).map fun j => Config.draw s.draws (off + j))

/-- A result register's value: true while idle, a draw while a command is pending (40_command_lifecycle.md R138). -/
def State.resultReg (s : State) (off : Nat) (v : Word) : Word := if s.busy then s.drawWord off else v

/-- An aligned 32-bit read of a register (10_state.md R22, 40_command_lifecycle.md R138). CMD reads 0 (R25). -/
def State.readRegister (s : State) (off : Nat) : Word :=
  match off with
  | 0x000 => s.ctrlWord
  | 0x004 => 0
  | 0x008 => s.statusWord
  | 0x00C => s.inLen
  | 0x010 => s.resultReg 0x010 s.outLen
  | 0x014 => s.resultReg 0x014 s.seq
  | 0x018 => s.resultReg 0x018 s.crc
  | 0x01C => s.resultReg 0x01C s.retcode
  | 0x020 => s.resultReg 0x020 s.rxSeq
  | 0x024 => s.resultReg 0x024 s.rxCmd
  | 0x028 => s.resultReg 0x028 s.rxCrc
  | 0x02C => s.resultReg 0x02C s.frameLen
  | 0x030 => s.param
  | _ => 0

/-- One byte lane of an aligned read outside the registers: KEY and unmapped offsets read 0 (10_state.md R42, 20_memory.md R63),
IN its byte (R70), OUT its byte while idle (R71) and a draw while busy (40_command_lifecycle.md R138). -/
def State.readLane (s : State) (a : Nat) : Byte :=
  match regionOf s.bufSize a with
  | .register => 0
  | .key => 0
  | .inBuf => s.readByte a
  | .outBuf => if s.busy then Config.draw s.draws a else s.readByte a
  | .unmapped => 0

/-- The data a host read answers (20_memory.md R63 to R65, R67): a register access of another width or alignment, and a misaligned
access elsewhere, read 0, busy or not (log 8). -/
def State.readData (s : State) (w : Width) (off : Nat) : Word :=
  if off < registersEnd then
    if w = .w32 ∧ off % 4 = 0 then s.readRegister off else 0
  else if off % w.bytes ≠ 0 then 0
  else leWord ((List.range w.bytes).map fun j => s.readLane (off + j))

/-- A host read: it answers its data and changes no state of the block (20_memory.md R75). -/
def State.hostRead (s : State) (w : Width) (off : Nat) : State :=
  { s with rdata := some (s.readData w off), draws := s.draws + 1 }

/-- An aligned 32-bit write of a register, as 10_state.md R22 gives its access. Read-only registers ignore it. -/
def State.writeRegister (s : State) (off : Nat) (v : Word) : State :=
  match off with
  | 0x000 => s.writeCtrl v
  | 0x004 => s.accept v
  | 0x008 => s.writeStatus v
  | 0x00C => { s with inLen := v }
  | 0x014 => { s with seq := v }
  | _ => s

/-- One byte lane of an aligned write outside the registers: KEY and IN store it (10_state.md R42, 20_memory.md R70), OUT and
unmapped offsets ignore it (R71, R63). -/
def State.writeLane (s : State) (a : Nat) (b : Byte) : State :=
  match regionOf s.bufSize a with
  | .register => s
  | .key => { s with key := s.key.setIfInBounds (a - keyBase) b }
  | .inBuf => { s with mem := s.mem.write a b }
  | .outBuf => s
  | .unmapped => s

/-- What a write does that the busy rule does not stop (20_memory.md R63 to R65, R67): a wrong width or alignment is ignored, an
access is never split, each lane is treated separately. -/
def State.storeData (s : State) (w : Width) (off : Nat) (data : Word) : State :=
  if off < registersEnd then
    if w = .w32 ∧ off % 4 = 0 then s.writeRegister off data else s
  else if off % w.bytes ≠ 0 then s
  else (List.range w.bytes).foldl (fun t j => t.writeLane (off + j) (laneOf data j)) s

/-- A host write: while busy, a write to any offset other than STATUS only sets WERR (40_command_lifecycle.md R137; log 9). -/
def State.hostWrite (s : State) (w : Width) (off : Nat) (data : Word) : State :=
  if s.busy ∧ off ≠ statusOffset then { s with werr := true } else s.storeData w off data

/-- One host transaction. An offset outside the window is outside the block (20_memory.md R61; log 7). -/
def State.hostAccess (s : State) : Access → Host.Outcome State Fault Refusal
  | .read w off => if off < windowSize then .next (s.hostRead w off) else .fault (.outsideWindow off)
  | .write w off data => if off < windowSize then .next (s.hostWrite w off data) else .fault (.outsideWindow off)

/-- One turn of a POLL: a 32-bit read; the POLL comes again unless the data matches (30_encoding.md R104). -/
def State.pollOnce (s : State) (off : Nat) (mask value : Word) : Host.Outcome State Fault Refusal :=
  if off < windowSize then
    if s.readData .w32 off &&& mask = value then .next (s.hostRead .w32 off)
    else .next { s.hostRead .w32 off with inputs := .poll off mask value :: s.inputs }
  else .fault (.outsideWindow off)

/-- One input reaches the block. -/
def State.serve (s : State) : Input → Host.Outcome State Fault Refusal
  | .access a => s.hostAccess a
  | .poll off mask value => s.pollOnce off mask value
  | .reset => .next s.platformReset

/-- The turn of the host and the platform: the oldest input reaches the block; with none waiting nothing happens (log 5). -/
def State.outsideTurn (s : State) : Host.Outcome State Fault Refusal :=
  match s.inputs with
  | [] => .next s
  | i :: rest => { s with inputs := rest }.serve i

end Sys2Proof.Machine
end

