-- ==== Sys2Proof/Machine/Checksum.lean ====
section
/-! DEFINITION. The CRC-32 engine (41_checksum.md). -/

namespace Sys2Proof.Machine

open Sys2Proof

/-- CRC_POLY, reflected (00_scope.md R7). -/
def crcPoly : Word := 0xEDB88320

/-- CRC_INIT (00_scope.md R7); the final complement is with the same value (41_checksum.md R150). -/
def crcInit : Word := 0xFFFFFFFF

/-- One of the eight steps for a byte, bit 0 first (41_checksum.md R150). -/
def crcBit (c : Word) : Word := if c.getLsbD 0 then (c >>> 1) ^^^ crcPoly else c >>> 1

/-- One byte of the input (41_checksum.md R150). -/
def crcByte (c : Word) (b : Byte) : Word := crcBit^[8] (c ^^^ b.setWidth 32)

/-- `CRC32(s)`, the bit-serial definition (41_checksum.md R150). -/
def crc32 (s : Bytes) : Word := s.foldl crcByte crcInit ^^^ crcInit

/-- CRC32 (41_checksum.md R151). -/
def execCrc32 (s : State) : Host.Outcome State Fault Refusal :=
  if ¬ s.inLenFits then .next (s.raise .inLenRange)
  else .next { s with crc := crc32 s.input }.complete

end Sys2Proof.Machine
end

