-- ==== Sys2Proof/Machine/Cipher.lean ====
section
/-! DEFINITION. The block cipher with padding (42_cipher.md): PAD, UNPAD, ECB, and the commands ENCRYPT and DECRYPT. -/

namespace Sys2Proof.Machine

open Sys2Proof

/-- `E(k, b)` of the parameter BlockCipher (42_cipher.md R170). -/
def blockE (k : Key) (b : Block) : Block := Config.blockCipher k b

/-- `D(k, b)` of the parameter BlockCipher, the inverse permutation (42_cipher.md R170). -/
def blockD (k : Key) (b : Block) : Block := (Config.blockCipher k).symm b

/-- The block that the first 16 bytes of a string make. -/
def blockOfBytes (t : Bytes) : Block := Vector.ofFn fun i : Fin 16 => t.getD i 0

/-- The 16 bytes of a block, byte 0 first. -/
def bytesOfBlock (b : Block) : Bytes := List.ofFn fun i : Fin 16 => b[i]

/-- Apply `f` to the first `n` blocks of a string, each independently and in order (42_cipher.md R172, R176). -/
def ecb (f : Block → Block) : Nat → Bytes → Bytes
  | 0, _ => []
  | n + 1, t => bytesOfBlock (f (blockOfBytes (t.take blockLen))) ++ ecb f n (t.drop blockLen)

/-- `ECB_E(k, t)`, for a string whose length is a multiple of 16 (42_cipher.md R172). -/
def ecbE (k : Key) (t : Bytes) : Bytes := ecb (blockE k) (t.length / blockLen) t

/-- `ECB_D(k, c)`, for a string whose length is a multiple of 16 (42_cipher.md R176). -/
def ecbD (k : Key) (c : Bytes) : Bytes := ecb (blockD k) (c.length / blockLen) c

/-- The number of bytes PAD appends to a string of length `n`, 1 to 16 (42_cipher.md R171). -/
def padLen (n : Nat) : Nat := blockLen - n % blockLen

/-- `PAD(s)`: p bytes, each of value p (42_cipher.md R171). -/
def pad (s : Bytes) : Bytes := s ++ List.replicate (padLen s.length) (BitVec.ofNat 8 (padLen s.length))

/-- `len(PAD(s))` for a string of length `n` (42_cipher.md R171, R173). -/
def paddedLen (n : Nat) : Nat := (n / blockLen + 1) * blockLen

/-- `UNPAD(q)`: only the final byte is examined, and a value outside 1 to 16 strips nothing (42_cipher.md R175). -/
def unpad (q : Bytes) : Bytes :=
  let n := (q.getD (q.length - 1) 0).toNat
  if 1 ≤ n ∧ n ≤ blockLen then q.take (q.length - n) else q

/-- A ciphertext length DECRYPT takes: non-zero and a multiple of 16 (42_cipher.md R177). -/
abbrev decryptable (n : Nat) : Prop := n ≠ 0 ∧ n % blockLen = 0

/-- ENCRYPT (42_cipher.md R174). -/
def execEncrypt (s : State) : Host.Outcome State Fault Refusal :=
  if ¬ s.inLenFits then .next (s.raise .inLenRange)
  else if s.bufSize < paddedLen s.inLen.toNat then .next (s.raise .outOverflow)
  else .next (s.storeOut (ecbE s.key (pad s.input))).complete

/-- DECRYPT; it never takes the plaintext-JSON fallback (42_cipher.md R177). -/
def execDecrypt (s : State) : Host.Outcome State Fault Refusal :=
  if ¬ s.inLenFits then .next (s.raise .inLenRange)
  else if ¬ decryptable s.inLen.toNat then .next (s.raise .decryptLen)
  else .next (s.storeOut (unpad (ecbD s.key s.input))).complete

end Sys2Proof.Machine
end

