-- ==== Sys2Proof/Machine/Control.lean ====
section
/-! DEFINITION. NOP and the illegal command words (40_command_lifecycle.md R134, R135). -/

namespace Sys2Proof.Machine

/-- NOP: `complete()`, and nothing else (40_command_lifecycle.md R134, 30_encoding.md R95). -/
def execNop (s : State) : Host.Outcome State Fault Refusal := .next s.complete

/-- An illegal command word: `raise Error(ILLEGAL_CMD)`, always (40_command_lifecycle.md R135, 30_encoding.md R92, R94). -/
def illegalWord (s : State) : Host.Outcome State Fault Refusal := .next (s.raise .illegalCmd)

end Sys2Proof.Machine
end

