-- ==== Sys2Proof/Machine/Frame.lean ====
section
/-! DEFINITION. The frame codec (43_frame_codec.md): the request frame, the response checks, and the commands BUILD and PARSE. -/

namespace Sys2Proof.Machine

open Sys2Proof

/-- The bytes of a request that its checksum covers: prefix, sequence, command, version header, length, payload
(43_frame_codec.md R202). -/
def requestBody (v : Version) (q : Word) (c : Bytes) : Bytes :=
  prefixBytes ++ toBE32 q ++ toBE32 (cmdCode v) ++ versionHeader v ++ toBE32 (BitVec.ofNat 32 (c.length + trailerLen)) ++ c

/-- `REQ_FRAME(v, q, C)` (43_frame_codec.md R202; layout 30_encoding.md R99, R100). -/
def reqFrame (v : Version) (q : Word) (c : Bytes) : Bytes :=
  requestBody v q c ++ toBE32 (crc32 (requestBody v q c)) ++ suffixBytes

/-- BUILD (43_frame_codec.md R201). -/
def execBuild (s : State) : Host.Outcome State Fault Refusal :=
  match versionOf s.version with
  | none => .next (s.raise .badVersion)
  | some v =>
    if ¬ s.inLenFits then .next (s.raise .inLenRange)
    else
      let p := paddedLen s.inLen.toNat
      let h := hdrOut v
      if s.bufSize < h + p + trailerLen then .next (s.raise .outOverflow)
      else
        let f := reqFrame v s.seq (ecbE s.key (pad s.input))
        .next { s.storeOut f with crc := be32 (slice f (h + p) (h + p + 4)), seq := s.seq + 1 }.complete

/-- What the framing checks hand on: the header, the length field, the payload, the return-code offset and the encrypted
segment (43_frame_codec.md R204). -/
structure Response where
  hdr : Bytes
  len : Nat
  pay : Bytes
  off : Nat
  seg : Bytes
  deriving DecidableEq, Repr

/-- `PARSE_FRAME(v)`: the framing checks, in the order of the decode steps (43_frame_codec.md R204, 60_exceptions.md R264). The
trailing CRC and suffix are not checked (43_frame_codec.md R207). -/
def State.parseFrame (s : State) (v : Version) : Except ErrCode Response :=
  if s.inLen.toNat < hdrLen then .error .frameShort
  else
    let hdr := s.memRead inBase hdrLen
    if slice hdr 0 4 ≠ prefixBytes then .error .framePrefix
    else
      let len := (be32 (slice hdr 12 16)).toNat
      if len = 0 ∨ maxRespLen < len then .error .frameLength
      else if s.inLen.toNat < hdrLen + len then .error .frameShort
      else
        let pay := s.memRead (inBase + hdrLen) len
        let off := rcOff v
        if len < off + trailerLen then .error .frameUnderflow
        else .ok { hdr := hdr, len := len, pay := pay, off := off, seg := slice pay off (len - trailerLen) }

/-- `FALLBACK_SCAN(seg)`: the least index of the byte 0x7B in the encrypted segment (43_frame_codec.md R205). -/
def fallbackScan (seg : Bytes) : Option Nat := seg.findIdx? (· == braceByte)

/-- The text of an encrypted segment, and whether the plaintext-JSON fallback was taken (43_frame_codec.md R206). -/
def segmentText (k : Key) (seg : Bytes) : Except ErrCode (Bytes × Bool) :=
  match fallbackScan seg with
  | some j => .ok (slice seg j seg.length, true)
  | none => if ¬ decryptable seg.length then .error .decryptLen else .ok (unpad (ecbD k seg), false)

/-- The result writes of a PARSE that succeeds (43_frame_codec.md R206). -/
def State.storeResponse (s : State) (r : Response) (t : Bytes) (fb : Bool) : State :=
  { s.storeOut t with
    retcode := if r.off = 4 then be32 (slice r.pay 0 4) else 0
    rxSeq := be32 (slice r.hdr 4 8)
    rxCmd := be32 (slice r.hdr 8 12)
    rxCrc := be32 (slice r.pay (r.len - 8) (r.len - 4))
    frameLen := BitVec.ofNat 32 (hdrLen + r.len)
    fallback := fb }

/-- PARSE (43_frame_codec.md R206). -/
def execParse (s : State) : Host.Outcome State Fault Refusal :=
  match versionOf s.version with
  | none => .next (s.raise .badVersion)
  | some v =>
    if ¬ s.inLenFits then .next (s.raise .inLenRange)
    else match s.parseFrame v with
      | .error code => .next (s.raise code)
      | .ok r =>
        match segmentText s.key r.seg with
        | .error code => .next (s.raise code)
        | .ok (t, fb) => .next (s.storeResponse r t fb).complete

end Sys2Proof.Machine
end

