-- ==== Sys2Proof/Machine/Dispatch.lean ====
section
/-! DEFINITION. The dispatch of 40_command_lifecycle.md R132: one arm per command. -/

namespace Sys2Proof.Machine

open Sys2Proof

def exec (i : Instr) (s : State) : Host.Outcome State Fault Refusal :=
  match i with
  | .nop => Sys2Proof.Machine.execNop s
  | .crc32 => Sys2Proof.Machine.execCrc32 s
  | .encrypt => Sys2Proof.Machine.execEncrypt s
  | .decrypt => Sys2Proof.Machine.execDecrypt s
  | .build => Sys2Proof.Machine.execBuild s
  | .parse => Sys2Proof.Machine.execParse s

end Sys2Proof.Machine
end

