-- ==== Sys2Proof/Machine/Engine.lean ====
section
/-! DEFINITION. The engine's step on the pending command word, and whose turn it is (40_command_lifecycle.md R131). -/

namespace Sys2Proof.Machine

open Sys2Proof

/-- `EXEC(w)`: the engine's one atomic step on the pending word (40_command_lifecycle.md R131, R132). -/
def engineStep (w : Word) (s : State) : Host.Outcome State Fault Refusal :=
  match decode w with
  | .ok i => exec i s
  | .error _ => illegalWord s

/-- One turn: a pending command whose delay has run out takes its engine step; otherwise the outside moves, and a pending
command comes one turn nearer (40_command_lifecycle.md R131, 20_memory.md R76; log 4). -/
def advance (s : State) : Host.Outcome State Fault Refusal :=
  match s.pend, s.delay with
  | none, _ => s.outsideTurn
  | some w, 0 => engineStep w s
  | some _, n + 1 => { s with delay := n }.outsideTurn

end Sys2Proof.Machine
end

