-- ==== Sys2Proof/Machine/Step.lean ====
section
/-! DEFINITION. One step of the machine, and the placing of a command word where the next step takes it. -/

namespace Sys2Proof.Machine

open Sys2Proof

/-- One step: the engine's, the host's or the platform's. -/
def step (s : State) : Host.Outcome State Fault Refusal := advance s

/-- `s` with the command word of the opcode table accepted (40_command_lifecycle.md R130) and its delay run out, so that the very
next step is its engine step. The block fetches nothing (10_state.md R21): a word is loaded from outside, by a CMD write, and this
stands for that write (log 5). -/
def State.withFetchWord (s : State) (nbits w : Nat) : State := s.issue (tableWord nbits w) 0

end Sys2Proof.Machine
end

