-- ==== Sys2Proof/Machine/HostProgram.lean ====
section
/-! DEFINITION. The host program notation: transactions and the expansions of the pseudo-instructions (30_encoding.md R104, R105). -/

namespace Sys2Proof.Machine

open Sys2Proof

/-- `WR32 off, v` (30_encoding.md R104). -/
def wr32 (off : Nat) (v : Word) : Input := .access (.write .w32 off v)

/-- `WR16 off, v` (30_encoding.md R104). -/
def wr16 (off : Nat) (v : Word) : Input := .access (.write .w16 off v)

/-- `WR8 off, v` (30_encoding.md R104). -/
def wr8 (off : Nat) (v : Word) : Input := .access (.write .w8 off v)

/-- `RD32 off` (30_encoding.md R104). -/
def rd32 (off : Nat) : Input := .access (.read .w32 off)

/-- `RD8 off` (30_encoding.md R104). -/
def rd8 (off : Nat) : Input := .access (.read .w8 off)

/-- `RUN op`: write the command, then wait for BUSY = 0 and DONE = 1 (30_encoding.md R105). -/
def hostRun (i : Instr) : List Input := [wr32 0x004 (encode i), .poll 0x008 0x00000003 0x00000002]

/-- `ACK`: clear DONE and WERR (30_encoding.md R105). -/
def hostAck : List Input := [wr32 0x008 0x0000000A]

/-- `SETKEY k0..k15`: four 32-bit writes (30_encoding.md R105). -/
def hostSetKey (k : Key) : List Input :=
  (List.range 4).map fun i => wr32 (0x040 + 4 * i) (leWord (slice k.toList (4 * i) (4 * i + 4)))

/-- `LOADIN s`: whole words, then the remaining bytes, then IN_LEN (30_encoding.md R105). -/
def hostLoadIn (s : Bytes) : List Input :=
  let words := s.length / 4
  ((List.range words).map fun i => wr32 (inBase + 4 * i) (leWord (slice s (4 * i) (4 * i + 4))))
    ++ ((List.range (s.length % 4)).map fun j => wr8 (inBase + 4 * words + j) ((s.getD (4 * words + j) 0).setWidth 32))
    ++ [wr32 0x00C (BitVec.ofNat 32 s.length)]

/-- `SETVER v`, with the current IE kept (30_encoding.md R105). -/
def hostSetVer (v : BitVec 2) (ie : Bool) : List Input :=
  [wr32 0x000 (v.setWidth 32 ||| ((BitVec.ofBool ie).setWidth 32 <<< 8))]

end Sys2Proof.Machine
end

