-- ==== Sys2Proof/Safety.lean ====
section
/-! DEFINITION. The terms claims use: which states are legal, what a transition leaves unchanged, how a command ends, and which
inputs stay inside the window. -/

namespace Sys2Proof.Machine

open Sys2Proof

/-- The states a block can be in, for any BUF_SIZE the spec allows. -/
structure State.Legal (s : State) : Prop where
  /-- 00_scope.md R8: 2064 <= BUF_SIZE. -/
  bufSize_low : 2064 ≤ s.bufSize
  /-- 00_scope.md R8: BUF_SIZE <= 4096. -/
  bufSize_high : s.bufSize ≤ 4096
  /-- The memory is in its canonical form. -/
  mem_wf : s.mem.wf
  /-- Only bytes of IN and OUT are stored (20_memory.md R62, R72). -/
  mem_in_buffers : ∀ c ∈ s.mem,
    (inBase ≤ c.1 ∧ c.1 < inBase + s.bufSize) ∨ (outBase ≤ c.1 ∧ c.1 < outBase + s.bufSize)
  /-- While a command is pending, DONE, FALLBACK and ERR are 0 (40_command_lifecycle.md R130, R138). -/
  busy_status : s.busy = true → s.done = false ∧ s.fallback = false ∧ s.err = .none
  /-- FALLBACK is 1 only after a PARSE without error (10_state.md R29). -/
  fallback_err : s.fallback = true → s.err = .none
  /-- OUT_LEN counts bytes of OUT (10_state.md R33, R44). -/
  outLen_le : s.outLen.toNat ≤ s.bufSize
  /-- The valid result bytes have been written (10_state.md R33, 70_reset_and_hazards.md R292). -/
  out_written : ∀ i, i < s.outLen.toNat → (s.mem.read (outBase + i)).isSome = true
  /-- FRAME_LEN is at most the largest frame PARSE accepts (10_state.md R40, 30_encoding.md R102). -/
  frameLen_le : s.frameLen.toNat ≤ hdrLen + maxRespLen

/-- What no command writes (30_encoding.md R96): CTRL, IN_LEN, PARAM, KEY, STATUS.WERR, and what lies outside the block. -/
structure SameSettings (s t : State) : Prop where
  version : t.version = s.version
  ie : t.ie = s.ie
  werr : t.werr = s.werr
  inLen : t.inLen = s.inLen
  param : t.param = s.param
  key : t.key = s.key
  delay : t.delay = s.delay
  inputs : t.inputs = s.inputs
  rdata : t.rdata = s.rdata

/-- The registers only PARSE writes (10_state.md R36 to R40). -/
structure SameReceived (s t : State) : Prop where
  retcode : t.retcode = s.retcode
  rxSeq : t.rxSeq = s.rxSeq
  rxCmd : t.rxCmd = s.rxCmd
  rxCrc : t.rxCrc = s.rxCrc
  frameLen : t.frameLen = s.frameLen

/-- Every byte of memory reads as before, except the `n` bytes from offset `a` upward. -/
def SameMemoryOutside (s t : State) (a n : Nat) : Prop := ∀ x, ¬(a ≤ x ∧ x < a + n) → t.mem.read x = s.mem.read x

/-- Every byte of memory reads as before. -/
def SameMemory (s t : State) : Prop := ∀ x, t.mem.read x = s.mem.read x

/-- A command has ended with an error code (40_command_lifecycle.md R133, 60_exceptions.md R262). -/
structure Ended (t : State) (code : ErrCode) : Prop where
  pend : t.pend = none
  done : t.done = true
  err : t.err = code

/-- Nothing but STATUS and PEND changed, and STATUS.FALLBACK kept its value (60_exceptions.md R262). -/
structure OnlyStatusChanged (s t : State) : Prop where
  settings : SameSettings s t
  received : SameReceived s t
  outLen : t.outLen = s.outLen
  seq : t.seq = s.seq
  crc : t.crc = s.crc
  fallback : t.fallback = s.fallback
  memory : SameMemory s t

/-- The command completes with an error code and no other effect (60_exceptions.md R262). -/
def Fails (i : Instr) (s : State) (code : ErrCode) : Prop :=
  ∃ t, exec i s = .next t ∧ Ended t code ∧ OnlyStatusChanged s t

/-- The result in OUT is the byte string `f`: OUT_LEN is its length and OUT[0 .. OUT_LEN) holds it (10_state.md R33). -/
def State.outIs (t : State) (f : Bytes) : Prop :=
  t.outLen.toNat = f.length ∧ ∀ (i : Nat) (h : i < f.length), t.mem.read (outBase + i) = some f[i]

/-- What the host's writes and the acceptance of a command leave alone: the result registers and OUT_LEN. -/
structure SameResults (s t : State) : Prop where
  received : SameReceived s t
  outLen : t.outLen = s.outLen
  seq : t.seq = s.seq
  crc : t.crc = s.crc

/-- The unmapped offsets of the window (20_memory.md R62). -/
def State.Unmapped (s : State) (a : Nat) : Prop :=
  (0x34 ≤ a ∧ a < 0x40) ∨ (0x50 ≤ a ∧ a < 0x1000) ∨ (0x1000 + s.bufSize ≤ a ∧ a < 0x2000) ∨
    (0x2000 + s.bufSize ≤ a ∧ a < 0x3000)

/-- Every input still to come stays inside the window. -/
def State.InputsInWindow (s : State) : Prop := ∀ i ∈ s.inputs, i.wellFormed = true

/-- No reset is still to come. -/
def State.NoResetComing (s : State) : Prop := Input.reset ∉ s.inputs

end Sys2Proof.Machine
end

