-- ==== Sys2Proof/Certificates/Slice0/Obligations.lean ====
section
/-! DEFINITION. The statements for the provers. Each docstring names the rule of the spec it formalises. -/

open Sys2Proof Sys2Proof.Machine

/-! ## Encoding -/

/-- A word selects a row exactly when it equals the row's match value in all 32 bits, and decode and encode agree on every
word (30_encoding.md R93). -/
def Obligations.AWordSelectsARowExactlyWhenItEqualsTheMatchValue : Prop :=
  ∀ w : Word,
    (decode w = .ok .nop ↔ w = 0x00000000) ∧ (decode w = .ok .crc32 ↔ w = 0x00000001) ∧
    (decode w = .ok .encrypt ↔ w = 0x00000002) ∧ (decode w = .ok .decrypt ↔ w = 0x00000003) ∧
    (decode w = .ok .build ↔ w = 0x00000004) ∧ (decode w = .ok .parse ↔ w = 0x00000005) ∧
    ∀ i, decode w = .ok i ↔ encode i = w

/-- Words written out from the opcode map decode to their rows; lanes are given lowest offset first (30_encoding.md R90, R93). -/
def Obligations.WordsOfTheOpcodeMapDecode : Prop :=
  decodeBytes [0x00, 0x00, 0x00, 0x00] = .ok .nop ∧ decodeBytes [0x01, 0x00, 0x00, 0x00] = .ok .crc32 ∧
  decodeBytes [0x02, 0x00, 0x00, 0x00] = .ok .encrypt ∧ decodeBytes [0x03, 0x00, 0x00, 0x00] = .ok .decrypt ∧
  decodeBytes [0x04, 0x00, 0x00, 0x00] = .ok .build ∧ decodeBytes [0x05, 0x00, 0x00, 0x00] = .ok .parse ∧
  decodeBytes [0x11, 0x00, 0x00, 0x00] = .error .reservedBits ∧
  decodeBytes [0x00, 0x00, 0x00, 0x01] = .error .reservedBits ∧
  decodeBytes [0x06, 0x00, 0x00, 0x00] = .error (.reservedOpcode 6)

/-- An illegal word, with any bit of RES set or with OPCODE 0x6 to 0xF, completes with ILLEGAL_CMD and no other effect
(30_encoding.md R92, R94; 40_command_lifecycle.md R135). -/
def Obligations.AnIllegalWordCompletesWithIllegalCmd : Prop :=
  ∀ (s : State) (w : Word), s.pend = some w → s.delay = 0 →
    w.extractLsb' 4 28 ≠ 0 ∨ 6 ≤ (w.extractLsb' 0 4).toNat →
    ∃ t, step s = .next t ∧ Ended t .illegalCmd ∧ OnlyStatusChanged s t

/-! ## The step -/

/-- When the pending word decodes to a command and its delay has run out, the step is that command's meaning at that state
(40_command_lifecycle.md R131, R132). -/
def Obligations.StepRunsThePendingCommand : Prop :=
  ∀ (s : State) (w : Word) (i : Instr), s.pend = some w → s.delay = 0 → decode w = .ok i → step s = exec i s

/-- Before its delay runs out a pending command has no step: the outside moves, and the command comes one turn nearer. With
nothing pending the outside moves too. The model's own scheduling (log 4, log 5). -/
def Obligations.TheOutsideMovesUntilTheDelayRunsOut : Prop :=
  (∀ (s : State) (w : Word) (n : Nat), s.pend = some w → s.delay = n + 1 →
      step s = ({ s with delay := n } : State).outsideTurn) ∧
  ∀ s : State, s.pend = none → step s = s.outsideTurn

/-! ## NOP and CRC32 -/

/-- NOP completes and changes nothing but STATUS (40_command_lifecycle.md R134, 30_encoding.md R95). -/
def Obligations.NopRunsTheHandshakeAlone : Prop :=
  ∀ s : State, ∃ t, exec .nop s = .next t ∧ Ended t .none ∧ OnlyStatusChanged s t

/-- CRC32 sets CRC to the checksum of IN[0 .. IN_LEN) and changes nothing else but STATUS; with IN_LEN above BUF_SIZE it ends with
IN_LEN_RANGE and changes nothing but STATUS (41_checksum.md R151). -/
def Obligations.Crc32SetsTheChecksumOfItsInput : Prop :=
  ∀ s : State,
    (s.inLen.toNat ≤ s.bufSize →
      ∃ t, exec .crc32 s = .next t ∧ Ended t .none ∧
        t.crc = crc32 (s.memRead inBase s.inLen.toNat) ∧
        SameSettings s t ∧ SameReceived s t ∧ t.outLen = s.outLen ∧ t.seq = s.seq ∧ t.fallback = s.fallback ∧
        SameMemory s t) ∧
    (s.bufSize < s.inLen.toNat → Fails .crc32 s .inLenRange)

/-- The bit-serial CRC-32 is the function a 256-entry table computes, with each entry the eight steps on its index
(41_checksum.md R150: an implementation may use a table provided it gives the same function). -/
def Obligations.TheChecksumIsTheTableDrivenFunction : Prop :=
  ∃ table : Byte → Word,
    (∀ b, table b = crcBit (crcBit (crcBit (crcBit (crcBit (crcBit (crcBit (crcBit (b.setWidth 32))))))))) ∧
    ∀ s : Bytes,
      crc32 s = s.foldl (fun (c : Word) (b : Byte) => (c >>> 8) ^^^ table (c.setWidth 8 ^^^ b)) 0xFFFFFFFF ^^^ 0xFFFFFFFF

/-- The bit loop of the checksum: one step shifts right and, when bit 0 was 1, adds the polynomial; the checksum of a string
and one more byte is the loop's eight steps from the string's (41_checksum.md R150). -/
def Obligations.TheChecksumFollowsTheBitSerialLoop : Prop :=
  (∀ c : Word, crcBit c = if c.getLsbD 0 = true then (c >>> 1) ^^^ 0xEDB88320 else c >>> 1) ∧
  crc32 [] = 0x00000000 ∧
  ∀ (s : Bytes) (b : Byte), crc32 (s ++ [b]) =
    crcBit (crcBit (crcBit (crcBit (crcBit (crcBit (crcBit (crcBit
      ((crc32 s ^^^ 0xFFFFFFFF) ^^^ b.setWidth 32)))))))) ^^^ 0xFFFFFFFF

/-! ## The cipher commands -/

/-- PAD appends p = 16 - (n mod 16) bytes, 1 to 16 of them, each of value p (42_cipher.md R171). -/
def Obligations.PadAppendsOneToSixteenBytesOfTheirNumber : Prop :=
  ∀ s : Bytes, (pad s).length = (s.length / 16 + 1) * 16 ∧ (pad s).take s.length = s ∧
    1 ≤ (pad s).length - s.length ∧ (pad s).length - s.length ≤ 16 ∧
    ∀ b ∈ (pad s).drop s.length, b.toNat = 16 - s.length % 16

/-- UNPAD looks at the final byte n only: it drops n bytes when n is 1 to 16, and none otherwise (42_cipher.md R175). -/
def Obligations.UnpadLooksAtTheFinalByteOnly : Prop :=
  ∀ (q : Bytes) (b : Byte), 15 ≤ q.length →
    unpad (q ++ [b]) =
      if 1 ≤ b.toNat ∧ b.toNat ≤ 16 then (q ++ [b]).take (q.length + 1 - b.toNat) else q ++ [b]

/-- ENCRYPT writes the padded input to OUT, block j of OUT being E of block j, and OUT_LEN; nothing else but STATUS changes. It ends
with IN_LEN_RANGE when IN_LEN is above BUF_SIZE, and else with OUT_OVERFLOW when the result would be (42_cipher.md R174). -/
def Obligations.EncryptWritesThePaddedInputBlockByBlock : Prop :=
  ∀ s : State,
    (s.inLen.toNat ≤ s.bufSize → (s.inLen.toNat / 16 + 1) * 16 ≤ s.bufSize →
      ∃ t c, exec .encrypt s = .next t ∧ Ended t .none ∧ t.outIs c ∧ c.length = (s.inLen.toNat / 16 + 1) * 16 ∧
        (∀ j, j < s.inLen.toNat / 16 + 1 → slice c (16 * j) (16 * j + 16) = bytesOfBlock (Config.blockCipher s.key
          (blockOfBytes (slice (pad (s.memRead inBase s.inLen.toNat)) (16 * j) (16 * j + 16))))) ∧
        SameMemoryOutside s t outBase c.length ∧
        SameSettings s t ∧ SameReceived s t ∧ t.seq = s.seq ∧ t.crc = s.crc ∧ t.fallback = s.fallback) ∧
    (s.bufSize < s.inLen.toNat → Fails .encrypt s .inLenRange) ∧
    (s.inLen.toNat ≤ s.bufSize → s.bufSize < (s.inLen.toNat / 16 + 1) * 16 → Fails .encrypt s .outOverflow)

/-- DECRYPT writes UNPAD of the decrypted blocks to OUT, block j of the plaintext being D of block j of the input, and OUT_LEN;
nothing else but STATUS changes, so it never takes the fallback. It ends with IN_LEN_RANGE when IN_LEN is above BUF_SIZE, and else
with DECRYPT_LEN when IN_LEN is 0 or no multiple of 16 (42_cipher.md R177). -/
def Obligations.DecryptWritesTheUnpaddedBlocks : Prop :=
  ∀ s : State,
    (s.inLen.toNat ≤ s.bufSize → s.inLen.toNat ≠ 0 → s.inLen.toNat % 16 = 0 →
      ∃ t q, exec .decrypt s = .next t ∧ Ended t .none ∧ q.length = s.inLen.toNat ∧
        (∀ j, j < s.inLen.toNat / 16 → slice q (16 * j) (16 * j + 16) = bytesOfBlock ((Config.blockCipher s.key).symm
          (blockOfBytes (s.memRead (inBase + 16 * j) 16)))) ∧
        t.outIs (unpad q) ∧ (unpad q).length ≤ q.length ∧ q.length ≤ (unpad q).length + 16 ∧
        SameMemoryOutside s t outBase (unpad q).length ∧
        SameSettings s t ∧ SameReceived s t ∧ t.seq = s.seq ∧ t.crc = s.crc ∧ t.fallback = s.fallback) ∧
    (s.bufSize < s.inLen.toNat → Fails .decrypt s .inLenRange) ∧
    (s.inLen.toNat ≤ s.bufSize → s.inLen.toNat = 0 ∨ s.inLen.toNat % 16 ≠ 0 → Fails .decrypt s .decryptLen)

/-- The error codes have the numbers of 60_exceptions.md R261, and an idle read of STATUS shows the code in bits 11 to 8. -/
def Obligations.ErrorCodesAreNumberedAsListed : Prop :=
  ErrCode.none.code = 0 ∧ ErrCode.illegalCmd.code = 1 ∧ ErrCode.inLenRange.code = 2 ∧ ErrCode.outOverflow.code = 3 ∧
  ErrCode.badVersion.code = 4 ∧ ErrCode.decryptLen.code = 5 ∧ ErrCode.frameShort.code = 6 ∧ ErrCode.framePrefix.code = 7 ∧
  ErrCode.frameLength.code = 8 ∧ ErrCode.frameUnderflow.code = 9 ∧
  ∀ (i : Instr) (s t : State) (code : ErrCode), exec i s = .next t → Ended t code →
    (t.readData .w32 0x008).extractLsb' 8 4 = code.code

/-- ENCRYPT, then DECRYPT of its result under the same KEY, gives the input back (42_cipher.md R178): for every state `s` in which
ENCRYPT fits, and every later state `u` whose IN holds the result. -/
def Obligations.DecryptRecoversWhatEncryptWrote : Prop :=
  ∀ s t u : State, s.inLen.toNat ≤ s.bufSize → (s.inLen.toNat / 16 + 1) * 16 ≤ s.bufSize →
    exec .encrypt s = .next t →
    u.key = s.key → u.bufSize = s.bufSize → u.inLen = t.outLen →
    (∀ i, i < t.outLen.toNat → u.mem.read (inBase + i) = t.mem.read (outBase + i)) →
    ∃ v, exec .decrypt u = .next v ∧ Ended v .none ∧ v.outIs (s.memRead inBase s.inLen.toNat)

/-! ## BUILD -/

/-- The big-endian fields: be32 weighs its bytes, and BE32 and be32 undo each other (00_scope.md R12). -/
def Obligations.BigEndianFieldsAreExact : Prop :=
  (∀ a b c d : Byte,
    (be32 [a, b, c, d]).toNat = a.toNat * 2 ^ 24 + b.toNat * 2 ^ 16 + c.toNat * 2 ^ 8 + d.toNat ∧
    toBE32 (be32 [a, b, c, d]) = [a, b, c, d]) ∧
  ∀ v : Word, be32 (toBE32 v) = v ∧
    toBE32 v = [v.extractLsb' 24 8, v.extractLsb' 16 8, v.extractLsb' 8 8, v.extractLsb' 0 8]

/-- BUILD under V3_3 writes the request frame of 30_encoding.md R99, field by field, OUT_LEN, CRC and the incremented SEQ;
nothing else but STATUS changes (43_frame_codec.md R201). -/
def Obligations.BuildWritesTheV33RequestFrame : Prop :=
  ∀ s : State, s.version = 0 → s.inLen.toNat ≤ s.bufSize →
    24 + (s.inLen.toNat / 16 + 1) * 16 ≤ s.bufSize →
    ∃ t f, exec .build s = .next t ∧ Ended t .none ∧ t.outIs f ∧
      f.length = 24 + (s.inLen.toNat / 16 + 1) * 16 ∧
      slice f 0 4 = [0x00, 0x00, 0x55, 0xAA] ∧ slice f 4 8 = toBE32 s.seq ∧
      slice f 8 12 = [0x00, 0x00, 0x00, 0x0A] ∧
      slice f 12 16 = toBE32 (BitVec.ofNat 32 ((s.inLen.toNat / 16 + 1) * 16 + 8)) ∧
      slice f 16 (16 + (s.inLen.toNat / 16 + 1) * 16) = ecbE s.key (pad (s.memRead inBase s.inLen.toNat)) ∧
      slice f (16 + (s.inLen.toNat / 16 + 1) * 16) (20 + (s.inLen.toNat / 16 + 1) * 16) =
        toBE32 (crc32 (slice f 0 (16 + (s.inLen.toNat / 16 + 1) * 16))) ∧
      slice f (20 + (s.inLen.toNat / 16 + 1) * 16) (24 + (s.inLen.toNat / 16 + 1) * 16) = [0x00, 0x00, 0xAA, 0x55] ∧
      t.crc = crc32 (slice f 0 (16 + (s.inLen.toNat / 16 + 1) * 16)) ∧ t.seq = s.seq + 1 ∧
      SameMemoryOutside s t outBase f.length ∧ SameSettings s t ∧ SameReceived s t ∧ t.fallback = s.fallback

/-- BUILD under V3_4 or V3_5 writes the request frame of 30_encoding.md R100 and R101, whose version header holds the ASCII
"3.4" or "3.5" (43_frame_codec.md R201). -/
def Obligations.BuildWritesTheV34AndV35RequestFrame : Prop :=
  ∀ (s : State) (minor : Byte), (s.version = 1 ∧ minor = 0x34) ∨ (s.version = 2 ∧ minor = 0x35) →
    s.inLen.toNat ≤ s.bufSize → 40 + (s.inLen.toNat / 16 + 1) * 16 ≤ s.bufSize →
    ∃ t f, exec .build s = .next t ∧ Ended t .none ∧ t.outIs f ∧
      f.length = 40 + (s.inLen.toNat / 16 + 1) * 16 ∧
      slice f 0 4 = [0x00, 0x00, 0x55, 0xAA] ∧ slice f 4 8 = toBE32 s.seq ∧
      slice f 8 12 = [0x00, 0x00, 0x00, 0x10] ∧
      slice f 12 28 = [0x33, 0x2E, minor, 0x00] ++ List.replicate 12 0x00 ∧
      slice f 28 32 = toBE32 (BitVec.ofNat 32 ((s.inLen.toNat / 16 + 1) * 16 + 8)) ∧
      slice f 32 (32 + (s.inLen.toNat / 16 + 1) * 16) = ecbE s.key (pad (s.memRead inBase s.inLen.toNat)) ∧
      slice f (32 + (s.inLen.toNat / 16 + 1) * 16) (36 + (s.inLen.toNat / 16 + 1) * 16) =
        toBE32 (crc32 (slice f 0 (32 + (s.inLen.toNat / 16 + 1) * 16))) ∧
      slice f (36 + (s.inLen.toNat / 16 + 1) * 16) (40 + (s.inLen.toNat / 16 + 1) * 16) = [0x00, 0x00, 0xAA, 0x55] ∧
      t.crc = crc32 (slice f 0 (32 + (s.inLen.toNat / 16 + 1) * 16)) ∧ t.seq = s.seq + 1 ∧
      SameMemoryOutside s t outBase f.length ∧ SameSettings s t ∧ SameReceived s t ∧ t.fallback = s.fallback

/-- The errors of BUILD in the order of 60_exceptions.md R264; SEQ and everything but STATUS stay. -/
def Obligations.BuildErrorsComeInOrder : Prop :=
  ∀ s : State,
    (s.version = 3 → Fails .build s .badVersion) ∧
    (s.version ≠ 3 → s.bufSize < s.inLen.toNat → Fails .build s .inLenRange) ∧
    (s.version = 0 → s.inLen.toNat ≤ s.bufSize → s.bufSize < 24 + (s.inLen.toNat / 16 + 1) * 16 →
      Fails .build s .outOverflow) ∧
    (s.version = 1 ∨ s.version = 2 → s.inLen.toNat ≤ s.bufSize → s.bufSize < 40 + (s.inLen.toNat / 16 + 1) * 16 →
      Fails .build s .outOverflow)

/-! ## PARSE -/

/-- PARSE of a well-framed response whose segment holds 0x7B, first at index j: the cipher is bypassed, OUT is the segment from j
on, and the header, return code and CRC fields are copied out (43_frame_codec.md R205, R206; 30_encoding.md R102, R103). -/
def Obligations.ParseTakesThePlaintextFallback : Prop :=
  ∀ (s : State) (L j off : Nat) (frame seg : Bytes),
    s.version ≠ 3 → off = (if s.version = 0 then 0 else 4) →
    s.inLen.toNat ≤ s.bufSize → 16 + L ≤ s.inLen.toNat → frame = s.memRead inBase (16 + L) →
    slice frame 0 4 = [0x00, 0x00, 0x55, 0xAA] → (be32 (slice frame 12 16)).toNat = L →
    L ≤ 2048 → off + 8 ≤ L → seg = slice frame (16 + off) (8 + L) →
    seg[j]? = some 0x7B → (∀ k, k < j → seg[k]? ≠ some 0x7B) →
    ∃ t, exec .parse s = .next t ∧ Ended t .none ∧ t.outIs (slice seg j seg.length) ∧ t.fallback = true ∧
      t.retcode = (if off = 4 then be32 (slice frame 16 20) else 0) ∧
      t.rxSeq = be32 (slice frame 4 8) ∧ t.rxCmd = be32 (slice frame 8 12) ∧
      t.rxCrc = be32 (slice frame (8 + L) (12 + L)) ∧ t.frameLen.toNat = 16 + L ∧
      SameMemoryOutside s t outBase (seg.length - j) ∧ SameSettings s t ∧ t.seq = s.seq ∧ t.crc = s.crc

/-- PARSE of a well-framed response whose segment holds no 0x7B and has a length the cipher takes: OUT is UNPAD of the decrypted
segment, FALLBACK is 0 (43_frame_codec.md R206). -/
def Obligations.ParseDecryptsASegmentWithoutABrace : Prop :=
  ∀ (s : State) (L off : Nat) (frame seg : Bytes),
    s.version ≠ 3 → off = (if s.version = 0 then 0 else 4) →
    s.inLen.toNat ≤ s.bufSize → 16 + L ≤ s.inLen.toNat → frame = s.memRead inBase (16 + L) →
    slice frame 0 4 = [0x00, 0x00, 0x55, 0xAA] → (be32 (slice frame 12 16)).toNat = L →
    L ≤ 2048 → off + 8 ≤ L → seg = slice frame (16 + off) (8 + L) →
    (0x7B : Byte) ∉ seg → seg.length ≠ 0 → seg.length % 16 = 0 →
    ∃ t, exec .parse s = .next t ∧ Ended t .none ∧ t.outIs (unpad (ecbD s.key seg)) ∧ t.fallback = false ∧
      t.retcode = (if off = 4 then be32 (slice frame 16 20) else 0) ∧
      t.rxSeq = be32 (slice frame 4 8) ∧ t.rxCmd = be32 (slice frame 8 12) ∧
      t.rxCrc = be32 (slice frame (8 + L) (12 + L)) ∧ t.frameLen.toNat = 16 + L ∧
      SameMemoryOutside s t outBase (unpad (ecbD s.key seg)).length ∧ SameSettings s t ∧ t.seq = s.seq ∧ t.crc = s.crc

/-- PARSE reports the first check that fails, in the order of 60_exceptions.md R264 and 43_frame_codec.md R204, with everything
but STATUS left alone; when none fails it completes without an error. -/
def Obligations.ParseReportsTheFirstFailingCheck : Prop :=
  ∀ (s : State) (n L off : Nat) (seg : Bytes) (code : Option ErrCode),
    n = s.inLen.toNat → L = (be32 (s.memRead (inBase + 12) 4)).toNat → off = (if s.version = 0 then 0 else 4) →
    seg = s.memRead (inBase + 16 + off) (L - 8 - off) →
    code = (if s.version = 3 then some .badVersion
      else if s.bufSize < n then some .inLenRange
      else if n < 16 then some .frameShort
      else if s.memRead inBase 4 ≠ [0x00, 0x00, 0x55, 0xAA] then some .framePrefix
      else if L = 0 ∨ 2048 < L then some .frameLength
      else if n < 16 + L then some .frameShort
      else if L < off + 8 then some .frameUnderflow
      else if (0x7B : Byte) ∉ seg ∧ (seg.length = 0 ∨ seg.length % 16 ≠ 0) then some .decryptLen
      else none) →
    match code with
    | some c => Fails .parse s c
    | none => ∃ t, exec .parse s = .next t ∧ Ended t .none

/-- V3_4 and V3_5 responses are parsed identically: the two outcomes differ in CTRL.VERSION alone. They carry a 4-byte return code,
which RETCODE takes; a V3_3 response carries none, and RETCODE becomes 0 (43_frame_codec.md R209). An unwritten byte that both runs
read has the same draw in both, which is the model's choice (log 3). -/
def Obligations.V34AndV35ResponsesAreParsedAlike : Prop :=
  (∀ s : State, ∃ t : State, exec .parse { s with version := 1 } = .next { t with version := 1 } ∧
    exec .parse { s with version := 2 } = .next { t with version := 2 }) ∧
  ∀ s t : State, exec .parse s = .next t → t.err = .none →
    t.retcode = if s.version = 0 then 0 else be32 (s.memRead (inBase + 16) 4)

/-- PARSE reads only IN[0 .. 16 + L): a longer IN_LEN and other bytes after the frame change no result, and FRAME_LEN is 16 + L
(43_frame_codec.md R208). An unwritten byte of the frame has the same draw in both runs, which is the model's choice (log 3). -/
def Obligations.ParseIgnoresBytesAfterTheFrame : Prop :=
  ∀ (s u : State) (L : Nat) (m : Memory) (n : Word), L = (be32 (s.memRead (inBase + 12) 4)).toNat →
    16 + L ≤ s.inLen.toNat → 16 + L ≤ n.toNat → s.inLen.toNat ≤ s.bufSize → n.toNat ≤ s.bufSize →
    (∀ i, i < 16 + L → m.read (inBase + i) = s.mem.read (inBase + i)) → u = { s with inLen := n, mem := m } →
    ∃ t v, exec .parse s = .next t ∧ exec .parse u = .next v ∧
      v.err = t.err ∧ v.fallback = t.fallback ∧ SameReceived t v ∧ v.outLen = t.outLen ∧
      (t.err = .none → t.frameLen.toNat = 16 + L ∧
        ∀ i, i < t.outLen.toNat → v.mem.read (outBase + i) = t.mem.read (outBase + i))

/-- PARSE does not verify the response's CRC or suffix: with other bytes there, only RX_CRC differs, which is the received field
(43_frame_codec.md R207). An unwritten byte that both runs read has the same draw in both, which is the model's choice (log 3). -/
def Obligations.ParseDoesNotVerifyTheTrailer : Prop :=
  ∀ (s u : State) (L : Nat) (m : Memory), L = (be32 (s.memRead (inBase + 12) 4)).toNat → 8 ≤ L →
    (∀ i, i < 8 + L → m.read (inBase + i) = s.mem.read (inBase + i)) → u = { s with mem := m } →
    ∃ t v, exec .parse s = .next t ∧ exec .parse u = .next v ∧
      v.err = t.err ∧ v.fallback = t.fallback ∧ v.retcode = t.retcode ∧ v.rxSeq = t.rxSeq ∧ v.rxCmd = t.rxCmd ∧
      v.frameLen = t.frameLen ∧ v.outLen = t.outLen ∧
      (t.err = .none → t.rxCrc = be32 (s.memRead (inBase + 8 + L) 4) ∧ v.rxCrc = be32 (u.memRead (inBase + 8 + L) 4) ∧
        ∀ i, i < t.outLen.toNat → v.mem.read (outBase + i) = t.mem.read (outBase + i))

/-- A frame BUILD wrote under V3_3, parsed under V3_3 with the same KEY, gives the request's plaintext back, unless the ciphertext
holds 0x7B: then OUT is the ciphertext from the first such byte on (43_frame_codec.md R210). -/
def Obligations.ParseRecoversAV33FrameThatBuildWrote : Prop :=
  ∀ (s t u : State) (c : Bytes), s.version = 0 → s.inLen.toNat ≤ s.bufSize →
    24 + (s.inLen.toNat / 16 + 1) * 16 ≤ s.bufSize → 24 + (s.inLen.toNat / 16 + 1) * 16 ≤ 2064 →
    exec .build s = .next t → c = ecbE s.key (pad (s.memRead inBase s.inLen.toNat)) →
    u.version = 0 → u.key = s.key → u.bufSize = s.bufSize → u.inLen = t.outLen →
    (∀ i, i < t.outLen.toNat → u.mem.read (inBase + i) = t.mem.read (outBase + i)) →
    ∃ v, exec .parse u = .next v ∧ Ended v .none ∧ v.rxSeq = s.seq ∧ v.rxCrc = t.crc ∧ v.frameLen = t.outLen ∧
      v.retcode = 0 ∧ v.rxCmd = 0x0000000A ∧
      (if (0x7B : Byte) ∈ c then v.fallback = true ∧ v.outIs (c.dropWhile (fun b => b != 0x7B))
       else v.fallback = false ∧ v.outIs (s.memRead inBase s.inLen.toNat))

/-- A V3_4 or V3_5 request is no well-formed response: PARSE reads its version header as the length and raises FRAME_LENGTH
(43_frame_codec.md R210). -/
def Obligations.ParseRejectsAV34OrV35Request : Prop :=
  ∀ s t u : State, s.version = 1 ∨ s.version = 2 → s.inLen.toNat ≤ s.bufSize →
    40 + (s.inLen.toNat / 16 + 1) * 16 ≤ s.bufSize → exec .build s = .next t →
    u.version ≠ 3 → u.bufSize = s.bufSize → u.inLen = t.outLen →
    (∀ i, i < t.outLen.toNat → u.mem.read (inBase + i) = t.mem.read (outBase + i)) →
    Fails .parse u .frameLength

/-! ## Every command -/

/-- Every command ends at once, whatever the state: the block is idle again, DONE is 1 and `irq` is CTRL.IE
(60_exceptions.md R260, R266; 10_state.md R28). -/
def Obligations.EveryCommandEndsAndRaisesTheInterrupt : Prop :=
  ∀ (i : Instr) (s : State), ∃ t, exec i s = .next t ∧ t.pend = none ∧ t.done = true ∧ t.irq = s.ie

/-- A command that ends with an error is over, with DONE and its code set, and has changed nothing but STATUS; FALLBACK and WERR
keep their values (60_exceptions.md R262). -/
def Obligations.AnErrorChangesOnlyStatus : Prop :=
  ∀ (i : Instr) (s t : State), exec i s = .next t → t.err ≠ .none → Ended t t.err ∧ OnlyStatusChanged s t

/-- What each command writes (30_encoding.md R96): no setting; no byte outside OUT[0 .. OUT_LEN); the received registers and
FALLBACK only by PARSE; SEQ only by BUILD; CRC only by CRC32 and BUILD; OUT_LEN and OUT by neither NOP nor CRC32. -/
def Obligations.CommandsWriteOnlyTheirResults : Prop :=
  ∀ (i : Instr) (s t : State), exec i s = .next t →
    SameSettings s t ∧ SameMemoryOutside s t outBase t.outLen.toNat ∧
    (i ≠ .parse → SameReceived s t ∧ t.fallback = s.fallback) ∧ (i ≠ .build → t.seq = s.seq) ∧
    (i ≠ .build → i ≠ .crc32 → t.crc = s.crc) ∧
    (i = .nop ∨ i = .crc32 → t.outLen = s.outLen ∧ SameMemory s t)

/-- FALLBACK is set only by a PARSE that completes without error (10_state.md R29). -/
def Obligations.OnlyASuccessfulParseSetsFallback : Prop :=
  ∀ (i : Instr) (s t : State), s.fallback = false → exec i s = .next t → t.fallback = true →
    i = .parse ∧ t.err = .none

/-! ## The host's accesses -/

/-- Acceptance (40_command_lifecycle.md R130): a 32-bit write of CMD while idle makes its word pending and clears DONE, ERR and
FALLBACK, whatever the word; everything else stays. While busy, or with another width or alignment, a CMD write is no acceptance. -/
def Obligations.ACmdWriteIsAcceptedWhileIdle : Prop :=
  (∀ (s : State) (w : Word), s.pend = none →
    ∃ t, s.hostAccess (.write .w32 0x004 w) = .next t ∧ t.pend = some w ∧ t.done = false ∧ t.err = .none ∧
      t.fallback = false ∧ t.werr = s.werr ∧ t.version = s.version ∧ t.ie = s.ie ∧ t.inLen = s.inLen ∧ t.param = s.param ∧
      t.key = s.key ∧ t.rdata = s.rdata ∧ t.inputs = s.inputs ∧ SameResults s t ∧ SameMemory s t) ∧
  ∀ (s : State) (w : Width) (off : Nat) (data : Word), 0x004 ≤ off → off < 0x008 →
    (s.pend ≠ none → s.hostAccess (.write w off data) = .next { s with werr := true }) ∧
    (s.pend = none → w ≠ .w32 ∨ off ≠ 0x004 → s.hostAccess (.write w off data) = .next s)

/-- While busy, a write to any offset of the window other than STATUS (0x008), of any width and alignment, only sets WERR
(40_command_lifecycle.md R137). That the offsets 0x009 to 0x00B, inside STATUS's word, count among them, and that an 8-bit or 16-bit
write at exactly 0x008 changes nothing, WERR included, is the model's reading of R137, R139 and 20_memory.md R64 (log 9). -/
def Obligations.ABusyWriteOnlySetsWerr : Prop :=
  ∀ (s : State) (w : Width) (off : Nat) (data : Word), s.pend ≠ none →
    (off < 0x3000 → off ≠ 0x008 → s.hostAccess (.write w off data) = .next { s with werr := true }) ∧
    (w ≠ .w32 → s.hostAccess (.write w 0x008 data) = .next s)

/-- A 32-bit write to STATUS is obeyed at any time: a 1 in bit 1 clears DONE, a 1 in bit 3 clears WERR, and nothing else changes
(40_command_lifecycle.md R139, 10_state.md R26). -/
def Obligations.AStatusWriteClearsDoneAndWerrAtAnyTime : Prop :=
  ∀ (s : State) (v : Word), s.hostAccess (.write .w32 0x008 v) =
    .next { s with
      done := if v.getLsbD 1 = true then false else s.done
      werr := if v.getLsbD 3 = true then false else s.werr }

/-- What STATUS reads as, busy or not: BUSY, DONE, FALLBACK, WERR and ERR in their places, 0 in the reserved bits; BUSY is 1
exactly when PEND holds a command (10_state.md R26, R27). -/
def Obligations.StatusReadsItsFields : Prop :=
  ∀ s : State,
    ((s.readData .w32 0x008).getLsbD 0 = true ↔ s.pend ≠ none) ∧ (s.readData .w32 0x008).getLsbD 1 = s.done ∧
    (s.readData .w32 0x008).getLsbD 2 = s.fallback ∧ (s.readData .w32 0x008).getLsbD 3 = s.werr ∧
    (s.readData .w32 0x008).extractLsb' 4 4 = 0 ∧ (s.readData .w32 0x008).extractLsb' 8 4 = s.err.code ∧
    (s.readData .w32 0x008).extractLsb' 12 20 = 0

/-- CTRL keeps VERSION and IE as written and its reserved bits read 0 (10_state.md R23). -/
def Obligations.CtrlKeepsVersionAndIeOnly : Prop :=
  ∀ (s : State) (v : Word), s.pend = none →
    ∃ t, s.hostAccess (.write .w32 0x000 v) = .next t ∧ t.version = v.extractLsb' 0 2 ∧ t.ie = v.getLsbD 8 ∧
      t.readData .w32 0x000 = v &&& 0x00000103 ∧
      t = { s with version := v.extractLsb' 0 2, ie := v.getLsbD 8 }

/-- While idle, IN_LEN and SEQ store all 32 bits as written, and the read-only registers ignore a write (10_state.md R22). -/
def Obligations.IdleRegisterWritesStoreOrAreIgnored : Prop :=
  ∀ (s : State) (v : Word), s.pend = none →
    s.hostAccess (.write .w32 0x00C v) = .next { s with inLen := v } ∧
    s.hostAccess (.write .w32 0x014 v) = .next { s with seq := v } ∧
    ∀ off ∈ [0x010, 0x018, 0x01C, 0x020, 0x024, 0x028, 0x02C, 0x030], s.hostAccess (.write .w32 off v) = .next s

/-- While idle, a 32-bit read gives each register's value; CMD reads 0 (10_state.md R22, R25). -/
def Obligations.IdleRegisterReadsGiveTheirValues : Prop :=
  ∀ s : State, s.pend = none →
    s.readData .w32 0x000 = s.ctrlWord ∧ s.readData .w32 0x004 = 0 ∧ s.readData .w32 0x008 = s.statusWord ∧
    s.readData .w32 0x00C = s.inLen ∧ s.readData .w32 0x010 = s.outLen ∧
    s.readData .w32 0x014 = s.seq ∧ s.readData .w32 0x018 = s.crc ∧ s.readData .w32 0x01C = s.retcode ∧
    s.readData .w32 0x020 = s.rxSeq ∧ s.readData .w32 0x024 = s.rxCmd ∧ s.readData .w32 0x028 = s.rxCrc ∧
    s.readData .w32 0x02C = s.frameLen ∧ s.readData .w32 0x030 = s.param

/-- While idle, registers take aligned 32-bit accesses only: another width or alignment reads 0 and writes nothing, so no such
write of CMD issues a command (20_memory.md R64). -/
def Obligations.RegistersTakeAlignedWordsOnly : Prop :=
  ∀ (s : State) (w : Width) (off : Nat) (data : Word), s.pend = none → off < 0x34 → w ≠ .w32 ∨ off % 4 ≠ 0 →
    s.readData w off = 0 ∧ s.hostAccess (.write w off data) = .next s

/-- While idle, a misaligned access outside the registers reads 0 and writes nothing: it is never split (20_memory.md R65). -/
def Obligations.MisalignedBufferAccessesAreIgnored : Prop :=
  ∀ (s : State) (w : Width) (off : Nat) (data : Word), s.pend = none → 0x34 ≤ off → off < 0x3000 → off % w.bytes ≠ 0 →
    s.readData w off = 0 ∧ s.hostAccess (.write w off data) = .next s

/-- Unmapped offsets read 0 in every lane and ignore writes; while idle such a write changes nothing at all, WERR included. No
access inside the window stops the block (20_memory.md R63). -/
def Obligations.UnmappedOffsetsReadZeroAndIgnoreWrites : Prop :=
  ∀ (s : State) (w : Width) (off : Nat) (data : Word), s.bufSize ≤ 4096 →
    (∀ j, j < w.bytes → s.Unmapped (off + j) → (s.readData w off).extractLsb' (8 * j) 8 = 0) ∧
    (s.Unmapped off → s.readData w off = 0 ∧ (s.pend = none → s.hostAccess (.write w off data) = .next s)) ∧
    (off < 0x3000 → (∃ t, s.hostAccess (.read w off) = .next t) ∧ ∃ t, s.hostAccess (.write w off data) = .next t)

/-- An aligned idle write to IN stores its lanes, low lane at the low offset, at the bytes of IN it covers, and nothing else
changes (20_memory.md R65, R67, R70). -/
def Obligations.AnIdleInWriteStoresItsLanes : Prop :=
  ∀ (s : State) (w : Width) (off : Nat) (data : Word), s.pend = none → s.bufSize ≤ 4096 →
    0x1000 ≤ off → off < 0x1000 + s.bufSize → off % w.bytes = 0 →
    ∃ m, s.hostAccess (.write w off data) = .next { s with mem := m } ∧
      ∀ x, m.read x = if off ≤ x ∧ x < off + w.bytes ∧ x < 0x1000 + s.bufSize
        then some (data.extractLsb' (8 * (x - off)) 8) else s.mem.read x

/-- An aligned read that starts in IN gives each written byte of IN it covers in its lane, whatever widths wrote them, busy or not,
and also where the access runs past the end of IN (20_memory.md R65, R67, R69, R70). That a narrow read gives 0 in the lanes above
its width is the model's choice (log 6). -/
def Obligations.AnInReadGivesEachByteInItsLane : Prop :=
  ∀ (s : State) (w : Width) (off j : Nat) (b : Byte), 0x1000 ≤ off → off < 0x1000 + s.bufSize → off % w.bytes = 0 →
    (j < w.bytes → off + j < 0x1000 + s.bufSize → s.mem.read (off + j) = some b →
      (s.readData w off).extractLsb' (8 * j) 8 = b) ∧
    (w.bytes ≤ j → (s.readData w off).extractLsb' (8 * j) 8 = 0)

/-- While idle, OUT ignores a host write of any width and alignment, and an aligned read that starts in OUT gives each written byte
of OUT it covers in its lane, also where the access runs past the end of OUT (20_memory.md R65, R67, R71). That a narrow read gives
0 in the lanes above its width is the model's choice (log 6). -/
def Obligations.OutIsReadOnlyToTheHost : Prop :=
  ∀ (s : State) (w : Width) (off : Nat) (data : Word), s.pend = none → s.bufSize ≤ 4096 →
    0x2000 ≤ off → off < 0x2000 + s.bufSize →
    s.hostAccess (.write w off data) = .next s ∧
    (off % w.bytes = 0 → ∀ (j : Nat) (b : Byte),
      (j < w.bytes → off + j < 0x2000 + s.bufSize → s.mem.read (off + j) = some b →
        (s.readData w off).extractLsb' (8 * j) 8 = b) ∧
      (w.bytes ≤ j → (s.readData w off).extractLsb' (8 * j) 8 = 0))

/-- An aligned idle write to KEY stores its lanes at the key bytes it covers and nothing else changes (10_state.md R42,
20_memory.md R65). -/
def Obligations.AnIdleKeyWriteStoresItsLanes : Prop :=
  ∀ (s : State) (w : Width) (off : Nat) (data : Word), s.pend = none → 0x40 ≤ off → off < 0x50 → off % w.bytes = 0 →
    ∃ k : Key, s.hostAccess (.write w off data) = .next { s with key := k } ∧
      ∀ i : Fin 16, k[i] = if off ≤ 0x40 + i.val ∧ 0x40 + i.val < off + w.bytes
        then data.extractLsb' (8 * (0x40 + i.val - off)) 8 else s.key[i]

/-- KEY is write-only: a read of any of its offsets gives 0, and no host read depends on what KEY holds (10_state.md R42,
60_exceptions.md R270). For an unwritten byte of IN or OUT, and for a busy read of a result register or of OUT, 20_memory.md R70 and R71
and 40_command_lifecycle.md R138 leave the answer unspecified; that it is a draw, which does not depend on KEY, is the model's choice
(log 3). -/
def Obligations.KeyIsNeverAnsweredToTheHost : Prop :=
  ∀ (s : State) (k : Key) (w : Width) (off : Nat),
    (0x40 ≤ off → off + w.bytes ≤ 0x50 → s.readData w off = 0) ∧
    ({ s with key := k } : State).readData w off = s.readData w off

/-- No read has a side effect on the block: only the answer and the model's event number change (20_memory.md R75). -/
def Obligations.ReadsChangeNoStateOfTheBlock : Prop :=
  ∀ (s : State) (w : Width) (off : Nat), off < 0x3000 →
    s.hostAccess (.read w off) = .next { s with rdata := some (s.readData w off), draws := s.draws + 1 }

/-- While a command is pending no host read depends on the result registers or on OUT: two busy states that agree on the rest
answer alike. R138 of 40_command_lifecycle.md leaves those answers unspecified; that they are draws which depend on the event's
number and the offset alone, so on no register and no byte of OUT, is the model's choice (log 3). -/
def Obligations.BusyReadsDoNotDependOnTheResults : Prop :=
  ∀ (s u : State) (w : Width) (off : Nat), s.pend ≠ none → u.pend ≠ none → u.draws = s.draws →
    u.version = s.version → u.ie = s.ie → u.done = s.done → u.fallback = s.fallback → u.werr = s.werr → u.err = s.err →
    u.inLen = s.inLen → u.param = s.param →
    (∀ x, inBase ≤ x → x < inBase + s.bufSize → u.mem.read x = s.mem.read x) →
    u.readData w off = s.readData w off

/-- While a command is pending, CTRL, STATUS, IN_LEN and PARAM read their values and CMD reads 0 (40_command_lifecycle.md R138).
Reads of a wrong width or alignment give 0 then too, which is the model's choice (log 8). -/
def Obligations.BusyReadsOfTheSettingsAreTrue : Prop :=
  ∀ s : State, s.pend ≠ none →
    (s.readData .w32 0x000 = s.ctrlWord ∧ s.readData .w32 0x004 = 0 ∧ s.readData .w32 0x008 = s.statusWord ∧
      s.readData .w32 0x00C = s.inLen ∧ s.readData .w32 0x030 = s.param) ∧
    ∀ (w : Width) (off : Nat),
      (off < 0x34 → w ≠ .w32 ∨ off % 4 ≠ 0 → s.readData w off = 0) ∧
      (0x34 ≤ off → off % w.bytes ≠ 0 → s.readData w off = 0)

/-- `irq` is CTRL.IE and STATUS.DONE (10_state.md R46): a STATUS write with bit 1 set clears DONE and lowers it, so does the
acceptance of a command, and an idle CTRL write that sets IE while DONE is 1 raises it at once (60_exceptions.md R267). -/
def Obligations.TheInterruptFollowsEnableAndDone : Prop :=
  ∀ (s : State) (v : Word),
    (v.getLsbD 1 = true → ∃ t, s.hostAccess (.write .w32 0x008 v) = .next t ∧ t.done = false ∧ t.irq = false) ∧
    (s.pend = none → ∃ t, s.hostAccess (.write .w32 0x004 v) = .next t ∧ t.done = false ∧ t.irq = false) ∧
    (s.pend = none → ∃ t, s.hostAccess (.write .w32 0x000 v) = .next t ∧ t.irq = (v.getLsbD 8 && s.done) ∧
      t.done = s.done)

/-! ## Host programs -/

/-- SETKEY, run on an idle block, leaves its 16 bytes in KEY (30_encoding.md R105, 10_state.md R42). That the host's program stands
in `inputs` is the model's choice (log 5). -/
def Obligations.SetKeyLoadsTheKey : Prop :=
  ∀ (s : State) (k : Key) (rest : List Input), s.pend = none → s.inputs = hostSetKey k ++ rest →
    Host.Core.run Sys2Proof.core 4 s = .next ({ s with key := k, inputs := rest } : State)

/-- LOADIN, run on an idle block, leaves its string in IN and its length in IN_LEN, and no other byte changes (30_encoding.md R105,
20_memory.md R67). That the host's program stands in `inputs` is the model's choice (log 5). -/
def Obligations.LoadInLoadsTheString : Prop :=
  ∀ (s : State) (bs : Bytes) (rest : List Input), s.pend = none → s.bufSize ≤ 4096 → bs.length ≤ s.bufSize →
    s.inputs = hostLoadIn bs ++ rest →
    ∃ m, Host.Core.run Sys2Proof.core (hostLoadIn bs).length s =
        .next ({ s with mem := m, inLen := BitVec.ofNat 32 bs.length, inputs := rest } : State) ∧
      ∀ x, m.read x = if h : inBase ≤ x ∧ x < inBase + bs.length then some (bs[x - inBase]'(by omega)) else s.mem.read x

/-- RUN, started on an idle block, comes to its end: whatever LATENCY is, after finitely many steps the command has ended and
the POLL has seen it (30_encoding.md R105, 40_command_lifecycle.md R131). How LATENCY is counted and where the host's program
stands is the model's choice (log 4, log 5). -/
def Obligations.RunComesToItsEnd : Prop :=
  ∀ (s : State) (i : Instr) (rest : List Input), s.pend = none → s.inputs = hostRun i ++ rest →
    ∃ k t, Host.Core.run Sys2Proof.core k s = .next t ∧ t.pend = none ∧ t.done = true ∧ t.inputs = rest

/-! ## Pending commands, reset, and every step -/

/-- A pending command's step is eventually taken: with the inputs inside the window and no reset among them, after its delay
and one step more the command has ended (40_command_lifecycle.md R131). That its delay counts steps is the model's choice
(log 4). -/
def Obligations.APendingCommandIsEventuallyTaken : Prop :=
  ∀ (s : State) (w : Word), s.pend = some w → s.InputsInWindow → s.NoResetComing →
    ∃ t, Host.Core.run Sys2Proof.core (s.delay + 1) s = .next t ∧ t.pend = none ∧ t.done = true

/-- The inputs a pending command reads cannot change before its engine step (40_command_lifecycle.md R137): until then every
step but a reset's leaves the word, CTRL, IN_LEN, SEQ, KEY and every byte of memory as they are, and takes one turn from its delay
(the model's choice, log 4). -/
def Obligations.APendingCommandsInputsAreFrozen : Prop :=
  ∀ (s t : State) (w : Word) (n : Nat), s.pend = some w → s.delay = n + 1 → s.NoResetComing → step s = .next t →
    t.pend = some w ∧ t.delay = n ∧ t.version = s.version ∧ t.ie = s.ie ∧ t.inLen = s.inLen ∧ t.seq = s.seq ∧
      t.key = s.key ∧ SameMemory s t ∧ t.NoResetComing

/-- The state after reset has the values of 70_reset_and_hazards.md R290, and every byte of IN and OUT is unwritten (R291). PARAM
is the default BUF_SIZE here, the model's choice of part (log 1). -/
def Obligations.ResetLeavesTheStatedValues : Prop :=
  State.reset.ctrlWord = 0 ∧ State.reset.statusWord = 0 ∧ State.reset.inLen = 0 ∧ State.reset.outLen = 0 ∧
    State.reset.seq = 1 ∧ State.reset.crc = 0 ∧ State.reset.retcode = 0 ∧ State.reset.rxSeq = 0 ∧
    State.reset.rxCmd = 0 ∧ State.reset.rxCrc = 0 ∧ State.reset.frameLen = 0 ∧ State.reset.param = 0x1000 ∧
    (∀ i : Fin 16, State.reset.key[i] = 0) ∧ State.reset.pend = none ∧ State.reset.irq = false ∧
    ∀ x, State.reset.mem.read x = none

/-- The platform's reset, whatever is pending: it abandons a pending command and gives every register its reset value; PARAM stays
(70_reset_and_hazards.md R290), and every buffer byte is unwritten (R291). That the inputs still to come stay is the model's choice
(log 5). -/
def Obligations.APlatformResetAbandonsThePendingCommand : Prop :=
  ∀ s : State,
    ∃ t, s.serve .reset = .next t ∧ t.pend = none ∧ t.ctrlWord = 0 ∧ t.statusWord = 0 ∧ t.inLen = 0 ∧ t.outLen = 0 ∧
      t.seq = 1 ∧ t.crc = 0 ∧ t.retcode = 0 ∧ t.rxSeq = 0 ∧ t.rxCmd = 0 ∧ t.rxCrc = 0 ∧ t.frameLen = 0 ∧
      t.param = s.param ∧ (∀ i : Fin 16, t.key[i] = 0) ∧ t.irq = false ∧ t.inputs = s.inputs ∧ ∀ x, t.mem.read x = none

/-- The block never stops: with its inputs inside the window every step answers a next state, whose inputs are again inside it
(60_exceptions.md R260). An access at or above 0x3000, which is outside the block (20_memory.md R61), is where the model stops
(the model's choice, log 7). -/
def Obligations.StepsStopOnlyOutsideTheWindow : Prop :=
  (∀ s : State, s.InputsInWindow → ∃ t, step s = .next t ∧ t.InputsInWindow) ∧
  ∀ (s : State) (w : Width) (off : Nat) (data : Word), 0x3000 ≤ off →
    s.hostAccess (.read w off) = .fault (.outsideWindow off) ∧
    s.hostAccess (.write w off data) = .fault (.outsideWindow off)

/-- The state after reset is legal, and so is the reset state of a part of any other BUF_SIZE (00_scope.md R8). -/
def Obligations.ResetIsLegal : Prop :=
  State.reset.Legal ∧
    ∀ n : Nat, 2064 ≤ n → n ≤ 4096 → ({ State.reset with param := BitVec.ofNat 32 n } : State).Legal

/-- Every step keeps a state legal: the memory canonical and inside IN and OUT, DONE, FALLBACK and ERR 0 while busy, FALLBACK
only without an error, OUT_LEN within OUT and the bytes below it written, FRAME_LEN within the largest frame. -/
def Obligations.EveryStepKeepsTheStateLegal : Prop := ∀ s t : State, s.Legal → step s = .next t → t.Legal
end

