-- ==== Sys2Proof/Laws/State.lean ====
section
/-! SUPPORT. What each update of the state leaves in each field, so that no proof unfolds a record update. -/

namespace Sys2Proof.Machine

open Sys2Proof

section
variable (s : State)

@[simp] theorem State.memWrite_version (a : Nat) (bs : Bytes) : (s.memWrite a bs).version = s.version := rfl
@[simp] theorem State.memWrite_ie (a : Nat) (bs : Bytes) : (s.memWrite a bs).ie = s.ie := rfl
@[simp] theorem State.memWrite_done (a : Nat) (bs : Bytes) : (s.memWrite a bs).done = s.done := rfl
@[simp] theorem State.memWrite_fallback (a : Nat) (bs : Bytes) : (s.memWrite a bs).fallback = s.fallback := rfl
@[simp] theorem State.memWrite_werr (a : Nat) (bs : Bytes) : (s.memWrite a bs).werr = s.werr := rfl
@[simp] theorem State.memWrite_err (a : Nat) (bs : Bytes) : (s.memWrite a bs).err = s.err := rfl
@[simp] theorem State.memWrite_inLen (a : Nat) (bs : Bytes) : (s.memWrite a bs).inLen = s.inLen := rfl
@[simp] theorem State.memWrite_outLen (a : Nat) (bs : Bytes) : (s.memWrite a bs).outLen = s.outLen := rfl
@[simp] theorem State.memWrite_seq (a : Nat) (bs : Bytes) : (s.memWrite a bs).seq = s.seq := rfl
@[simp] theorem State.memWrite_crc (a : Nat) (bs : Bytes) : (s.memWrite a bs).crc = s.crc := rfl
@[simp] theorem State.memWrite_retcode (a : Nat) (bs : Bytes) : (s.memWrite a bs).retcode = s.retcode := rfl
@[simp] theorem State.memWrite_rxSeq (a : Nat) (bs : Bytes) : (s.memWrite a bs).rxSeq = s.rxSeq := rfl
@[simp] theorem State.memWrite_rxCmd (a : Nat) (bs : Bytes) : (s.memWrite a bs).rxCmd = s.rxCmd := rfl
@[simp] theorem State.memWrite_rxCrc (a : Nat) (bs : Bytes) : (s.memWrite a bs).rxCrc = s.rxCrc := rfl
@[simp] theorem State.memWrite_frameLen (a : Nat) (bs : Bytes) : (s.memWrite a bs).frameLen = s.frameLen := rfl
@[simp] theorem State.memWrite_param (a : Nat) (bs : Bytes) : (s.memWrite a bs).param = s.param := rfl
@[simp] theorem State.memWrite_key (a : Nat) (bs : Bytes) : (s.memWrite a bs).key = s.key := rfl
@[simp] theorem State.memWrite_mem (a : Nat) (bs : Bytes) : (s.memWrite a bs).mem = s.mem.writeBytes a bs := rfl
@[simp] theorem State.memWrite_pend (a : Nat) (bs : Bytes) : (s.memWrite a bs).pend = s.pend := rfl
@[simp] theorem State.memWrite_delay (a : Nat) (bs : Bytes) : (s.memWrite a bs).delay = s.delay := rfl
@[simp] theorem State.memWrite_inputs (a : Nat) (bs : Bytes) : (s.memWrite a bs).inputs = s.inputs := rfl
@[simp] theorem State.memWrite_rdata (a : Nat) (bs : Bytes) : (s.memWrite a bs).rdata = s.rdata := rfl
@[simp] theorem State.memWrite_draws (a : Nat) (bs : Bytes) : (s.memWrite a bs).draws = s.draws := rfl

@[simp] theorem State.storeOut_version (bs : Bytes) : (s.storeOut bs).version = s.version := rfl
@[simp] theorem State.storeOut_ie (bs : Bytes) : (s.storeOut bs).ie = s.ie := rfl
@[simp] theorem State.storeOut_done (bs : Bytes) : (s.storeOut bs).done = s.done := rfl
@[simp] theorem State.storeOut_fallback (bs : Bytes) : (s.storeOut bs).fallback = s.fallback := rfl
@[simp] theorem State.storeOut_werr (bs : Bytes) : (s.storeOut bs).werr = s.werr := rfl
@[simp] theorem State.storeOut_err (bs : Bytes) : (s.storeOut bs).err = s.err := rfl
@[simp] theorem State.storeOut_inLen (bs : Bytes) : (s.storeOut bs).inLen = s.inLen := rfl
@[simp] theorem State.storeOut_outLen (bs : Bytes) : (s.storeOut bs).outLen = BitVec.ofNat 32 bs.length := rfl
@[simp] theorem State.storeOut_seq (bs : Bytes) : (s.storeOut bs).seq = s.seq := rfl
@[simp] theorem State.storeOut_crc (bs : Bytes) : (s.storeOut bs).crc = s.crc := rfl
@[simp] theorem State.storeOut_retcode (bs : Bytes) : (s.storeOut bs).retcode = s.retcode := rfl
@[simp] theorem State.storeOut_rxSeq (bs : Bytes) : (s.storeOut bs).rxSeq = s.rxSeq := rfl
@[simp] theorem State.storeOut_rxCmd (bs : Bytes) : (s.storeOut bs).rxCmd = s.rxCmd := rfl
@[simp] theorem State.storeOut_rxCrc (bs : Bytes) : (s.storeOut bs).rxCrc = s.rxCrc := rfl
@[simp] theorem State.storeOut_frameLen (bs : Bytes) : (s.storeOut bs).frameLen = s.frameLen := rfl
@[simp] theorem State.storeOut_param (bs : Bytes) : (s.storeOut bs).param = s.param := rfl
@[simp] theorem State.storeOut_key (bs : Bytes) : (s.storeOut bs).key = s.key := rfl
@[simp] theorem State.storeOut_mem (bs : Bytes) : (s.storeOut bs).mem = s.mem.writeBytes outBase bs := rfl
@[simp] theorem State.storeOut_pend (bs : Bytes) : (s.storeOut bs).pend = s.pend := rfl
@[simp] theorem State.storeOut_delay (bs : Bytes) : (s.storeOut bs).delay = s.delay := rfl
@[simp] theorem State.storeOut_inputs (bs : Bytes) : (s.storeOut bs).inputs = s.inputs := rfl
@[simp] theorem State.storeOut_rdata (bs : Bytes) : (s.storeOut bs).rdata = s.rdata := rfl
@[simp] theorem State.storeOut_draws (bs : Bytes) : (s.storeOut bs).draws = s.draws := rfl

@[simp] theorem State.complete_version : (s.complete).version = s.version := rfl
@[simp] theorem State.complete_ie : (s.complete).ie = s.ie := rfl
@[simp] theorem State.complete_done : (s.complete).done = true := rfl
@[simp] theorem State.complete_fallback : (s.complete).fallback = s.fallback := rfl
@[simp] theorem State.complete_werr : (s.complete).werr = s.werr := rfl
@[simp] theorem State.complete_err : (s.complete).err = .none := rfl
@[simp] theorem State.complete_inLen : (s.complete).inLen = s.inLen := rfl
@[simp] theorem State.complete_outLen : (s.complete).outLen = s.outLen := rfl
@[simp] theorem State.complete_seq : (s.complete).seq = s.seq := rfl
@[simp] theorem State.complete_crc : (s.complete).crc = s.crc := rfl
@[simp] theorem State.complete_retcode : (s.complete).retcode = s.retcode := rfl
@[simp] theorem State.complete_rxSeq : (s.complete).rxSeq = s.rxSeq := rfl
@[simp] theorem State.complete_rxCmd : (s.complete).rxCmd = s.rxCmd := rfl
@[simp] theorem State.complete_rxCrc : (s.complete).rxCrc = s.rxCrc := rfl
@[simp] theorem State.complete_frameLen : (s.complete).frameLen = s.frameLen := rfl
@[simp] theorem State.complete_param : (s.complete).param = s.param := rfl
@[simp] theorem State.complete_key : (s.complete).key = s.key := rfl
@[simp] theorem State.complete_mem : (s.complete).mem = s.mem := rfl
@[simp] theorem State.complete_pend : (s.complete).pend = none := rfl
@[simp] theorem State.complete_delay : (s.complete).delay = s.delay := rfl
@[simp] theorem State.complete_inputs : (s.complete).inputs = s.inputs := rfl
@[simp] theorem State.complete_rdata : (s.complete).rdata = s.rdata := rfl
@[simp] theorem State.complete_draws : (s.complete).draws = s.draws + 1 := rfl

@[simp] theorem State.raise_version (c : ErrCode) : (s.raise c).version = s.version := rfl
@[simp] theorem State.raise_ie (c : ErrCode) : (s.raise c).ie = s.ie := rfl
@[simp] theorem State.raise_done (c : ErrCode) : (s.raise c).done = true := rfl
@[simp] theorem State.raise_fallback (c : ErrCode) : (s.raise c).fallback = s.fallback := rfl
@[simp] theorem State.raise_werr (c : ErrCode) : (s.raise c).werr = s.werr := rfl
@[simp] theorem State.raise_err (c : ErrCode) : (s.raise c).err = c := rfl
@[simp] theorem State.raise_inLen (c : ErrCode) : (s.raise c).inLen = s.inLen := rfl
@[simp] theorem State.raise_outLen (c : ErrCode) : (s.raise c).outLen = s.outLen := rfl
@[simp] theorem State.raise_seq (c : ErrCode) : (s.raise c).seq = s.seq := rfl
@[simp] theorem State.raise_crc (c : ErrCode) : (s.raise c).crc = s.crc := rfl
@[simp] theorem State.raise_retcode (c : ErrCode) : (s.raise c).retcode = s.retcode := rfl
@[simp] theorem State.raise_rxSeq (c : ErrCode) : (s.raise c).rxSeq = s.rxSeq := rfl
@[simp] theorem State.raise_rxCmd (c : ErrCode) : (s.raise c).rxCmd = s.rxCmd := rfl
@[simp] theorem State.raise_rxCrc (c : ErrCode) : (s.raise c).rxCrc = s.rxCrc := rfl
@[simp] theorem State.raise_frameLen (c : ErrCode) : (s.raise c).frameLen = s.frameLen := rfl
@[simp] theorem State.raise_param (c : ErrCode) : (s.raise c).param = s.param := rfl
@[simp] theorem State.raise_key (c : ErrCode) : (s.raise c).key = s.key := rfl
@[simp] theorem State.raise_mem (c : ErrCode) : (s.raise c).mem = s.mem := rfl
@[simp] theorem State.raise_pend (c : ErrCode) : (s.raise c).pend = none := rfl
@[simp] theorem State.raise_delay (c : ErrCode) : (s.raise c).delay = s.delay := rfl
@[simp] theorem State.raise_inputs (c : ErrCode) : (s.raise c).inputs = s.inputs := rfl
@[simp] theorem State.raise_rdata (c : ErrCode) : (s.raise c).rdata = s.rdata := rfl
@[simp] theorem State.raise_draws (c : ErrCode) : (s.raise c).draws = s.draws + 1 := rfl

@[simp] theorem State.issue_version (w : Word) (n : Nat) : (s.issue w n).version = s.version := rfl
@[simp] theorem State.issue_ie (w : Word) (n : Nat) : (s.issue w n).ie = s.ie := rfl
@[simp] theorem State.issue_done (w : Word) (n : Nat) : (s.issue w n).done = false := rfl
@[simp] theorem State.issue_fallback (w : Word) (n : Nat) : (s.issue w n).fallback = false := rfl
@[simp] theorem State.issue_werr (w : Word) (n : Nat) : (s.issue w n).werr = s.werr := rfl
@[simp] theorem State.issue_err (w : Word) (n : Nat) : (s.issue w n).err = .none := rfl
@[simp] theorem State.issue_inLen (w : Word) (n : Nat) : (s.issue w n).inLen = s.inLen := rfl
@[simp] theorem State.issue_outLen (w : Word) (n : Nat) : (s.issue w n).outLen = s.outLen := rfl
@[simp] theorem State.issue_seq (w : Word) (n : Nat) : (s.issue w n).seq = s.seq := rfl
@[simp] theorem State.issue_crc (w : Word) (n : Nat) : (s.issue w n).crc = s.crc := rfl
@[simp] theorem State.issue_retcode (w : Word) (n : Nat) : (s.issue w n).retcode = s.retcode := rfl
@[simp] theorem State.issue_rxSeq (w : Word) (n : Nat) : (s.issue w n).rxSeq = s.rxSeq := rfl
@[simp] theorem State.issue_rxCmd (w : Word) (n : Nat) : (s.issue w n).rxCmd = s.rxCmd := rfl
@[simp] theorem State.issue_rxCrc (w : Word) (n : Nat) : (s.issue w n).rxCrc = s.rxCrc := rfl
@[simp] theorem State.issue_frameLen (w : Word) (n : Nat) : (s.issue w n).frameLen = s.frameLen := rfl
@[simp] theorem State.issue_param (w : Word) (n : Nat) : (s.issue w n).param = s.param := rfl
@[simp] theorem State.issue_key (w : Word) (n : Nat) : (s.issue w n).key = s.key := rfl
@[simp] theorem State.issue_mem (w : Word) (n : Nat) : (s.issue w n).mem = s.mem := rfl
@[simp] theorem State.issue_pend (w : Word) (n : Nat) : (s.issue w n).pend = some w := rfl
@[simp] theorem State.issue_delay (w : Word) (n : Nat) : (s.issue w n).delay = n := rfl
@[simp] theorem State.issue_inputs (w : Word) (n : Nat) : (s.issue w n).inputs = s.inputs := rfl
@[simp] theorem State.issue_rdata (w : Word) (n : Nat) : (s.issue w n).rdata = s.rdata := rfl
@[simp] theorem State.issue_draws (w : Word) (n : Nat) : (s.issue w n).draws = s.draws := rfl

@[simp] theorem State.accept_version (w : Word) : (s.accept w).version = s.version := rfl
@[simp] theorem State.accept_ie (w : Word) : (s.accept w).ie = s.ie := rfl
@[simp] theorem State.accept_done (w : Word) : (s.accept w).done = false := rfl
@[simp] theorem State.accept_fallback (w : Word) : (s.accept w).fallback = false := rfl
@[simp] theorem State.accept_werr (w : Word) : (s.accept w).werr = s.werr := rfl
@[simp] theorem State.accept_err (w : Word) : (s.accept w).err = .none := rfl
@[simp] theorem State.accept_inLen (w : Word) : (s.accept w).inLen = s.inLen := rfl
@[simp] theorem State.accept_outLen (w : Word) : (s.accept w).outLen = s.outLen := rfl
@[simp] theorem State.accept_seq (w : Word) : (s.accept w).seq = s.seq := rfl
@[simp] theorem State.accept_crc (w : Word) : (s.accept w).crc = s.crc := rfl
@[simp] theorem State.accept_retcode (w : Word) : (s.accept w).retcode = s.retcode := rfl
@[simp] theorem State.accept_rxSeq (w : Word) : (s.accept w).rxSeq = s.rxSeq := rfl
@[simp] theorem State.accept_rxCmd (w : Word) : (s.accept w).rxCmd = s.rxCmd := rfl
@[simp] theorem State.accept_rxCrc (w : Word) : (s.accept w).rxCrc = s.rxCrc := rfl
@[simp] theorem State.accept_frameLen (w : Word) : (s.accept w).frameLen = s.frameLen := rfl
@[simp] theorem State.accept_param (w : Word) : (s.accept w).param = s.param := rfl
@[simp] theorem State.accept_key (w : Word) : (s.accept w).key = s.key := rfl
@[simp] theorem State.accept_mem (w : Word) : (s.accept w).mem = s.mem := rfl
@[simp] theorem State.accept_pend (w : Word) : (s.accept w).pend = some w := rfl
@[simp] theorem State.accept_delay (w : Word) : (s.accept w).delay = Config.latency s.draws := rfl
@[simp] theorem State.accept_inputs (w : Word) : (s.accept w).inputs = s.inputs := rfl
@[simp] theorem State.accept_rdata (w : Word) : (s.accept w).rdata = s.rdata := rfl
@[simp] theorem State.accept_draws (w : Word) : (s.accept w).draws = s.draws + 1 := rfl

@[simp] theorem State.writeCtrl_version (v : Word) : (s.writeCtrl v).version = v.extractLsb' 0 2 := rfl
@[simp] theorem State.writeCtrl_ie (v : Word) : (s.writeCtrl v).ie = v.getLsbD 8 := rfl
@[simp] theorem State.writeCtrl_done (v : Word) : (s.writeCtrl v).done = s.done := rfl
@[simp] theorem State.writeCtrl_fallback (v : Word) : (s.writeCtrl v).fallback = s.fallback := rfl
@[simp] theorem State.writeCtrl_werr (v : Word) : (s.writeCtrl v).werr = s.werr := rfl
@[simp] theorem State.writeCtrl_err (v : Word) : (s.writeCtrl v).err = s.err := rfl
@[simp] theorem State.writeCtrl_inLen (v : Word) : (s.writeCtrl v).inLen = s.inLen := rfl
@[simp] theorem State.writeCtrl_outLen (v : Word) : (s.writeCtrl v).outLen = s.outLen := rfl
@[simp] theorem State.writeCtrl_seq (v : Word) : (s.writeCtrl v).seq = s.seq := rfl
@[simp] theorem State.writeCtrl_crc (v : Word) : (s.writeCtrl v).crc = s.crc := rfl
@[simp] theorem State.writeCtrl_retcode (v : Word) : (s.writeCtrl v).retcode = s.retcode := rfl
@[simp] theorem State.writeCtrl_rxSeq (v : Word) : (s.writeCtrl v).rxSeq = s.rxSeq := rfl
@[simp] theorem State.writeCtrl_rxCmd (v : Word) : (s.writeCtrl v).rxCmd = s.rxCmd := rfl
@[simp] theorem State.writeCtrl_rxCrc (v : Word) : (s.writeCtrl v).rxCrc = s.rxCrc := rfl
@[simp] theorem State.writeCtrl_frameLen (v : Word) : (s.writeCtrl v).frameLen = s.frameLen := rfl
@[simp] theorem State.writeCtrl_param (v : Word) : (s.writeCtrl v).param = s.param := rfl
@[simp] theorem State.writeCtrl_key (v : Word) : (s.writeCtrl v).key = s.key := rfl
@[simp] theorem State.writeCtrl_mem (v : Word) : (s.writeCtrl v).mem = s.mem := rfl
@[simp] theorem State.writeCtrl_pend (v : Word) : (s.writeCtrl v).pend = s.pend := rfl
@[simp] theorem State.writeCtrl_delay (v : Word) : (s.writeCtrl v).delay = s.delay := rfl
@[simp] theorem State.writeCtrl_inputs (v : Word) : (s.writeCtrl v).inputs = s.inputs := rfl
@[simp] theorem State.writeCtrl_rdata (v : Word) : (s.writeCtrl v).rdata = s.rdata := rfl
@[simp] theorem State.writeCtrl_draws (v : Word) : (s.writeCtrl v).draws = s.draws := rfl

@[simp] theorem State.writeStatus_version (v : Word) : (s.writeStatus v).version = s.version := rfl
@[simp] theorem State.writeStatus_ie (v : Word) : (s.writeStatus v).ie = s.ie := rfl
@[simp] theorem State.writeStatus_done (v : Word) : (s.writeStatus v).done = (s.done && !v.getLsbD 1) := rfl
@[simp] theorem State.writeStatus_fallback (v : Word) : (s.writeStatus v).fallback = s.fallback := rfl
@[simp] theorem State.writeStatus_werr (v : Word) : (s.writeStatus v).werr = (s.werr && !v.getLsbD 3) := rfl
@[simp] theorem State.writeStatus_err (v : Word) : (s.writeStatus v).err = s.err := rfl
@[simp] theorem State.writeStatus_inLen (v : Word) : (s.writeStatus v).inLen = s.inLen := rfl
@[simp] theorem State.writeStatus_outLen (v : Word) : (s.writeStatus v).outLen = s.outLen := rfl
@[simp] theorem State.writeStatus_seq (v : Word) : (s.writeStatus v).seq = s.seq := rfl
@[simp] theorem State.writeStatus_crc (v : Word) : (s.writeStatus v).crc = s.crc := rfl
@[simp] theorem State.writeStatus_retcode (v : Word) : (s.writeStatus v).retcode = s.retcode := rfl
@[simp] theorem State.writeStatus_rxSeq (v : Word) : (s.writeStatus v).rxSeq = s.rxSeq := rfl
@[simp] theorem State.writeStatus_rxCmd (v : Word) : (s.writeStatus v).rxCmd = s.rxCmd := rfl
@[simp] theorem State.writeStatus_rxCrc (v : Word) : (s.writeStatus v).rxCrc = s.rxCrc := rfl
@[simp] theorem State.writeStatus_frameLen (v : Word) : (s.writeStatus v).frameLen = s.frameLen := rfl
@[simp] theorem State.writeStatus_param (v : Word) : (s.writeStatus v).param = s.param := rfl
@[simp] theorem State.writeStatus_key (v : Word) : (s.writeStatus v).key = s.key := rfl
@[simp] theorem State.writeStatus_mem (v : Word) : (s.writeStatus v).mem = s.mem := rfl
@[simp] theorem State.writeStatus_pend (v : Word) : (s.writeStatus v).pend = s.pend := rfl
@[simp] theorem State.writeStatus_delay (v : Word) : (s.writeStatus v).delay = s.delay := rfl
@[simp] theorem State.writeStatus_inputs (v : Word) : (s.writeStatus v).inputs = s.inputs := rfl
@[simp] theorem State.writeStatus_rdata (v : Word) : (s.writeStatus v).rdata = s.rdata := rfl
@[simp] theorem State.writeStatus_draws (v : Word) : (s.writeStatus v).draws = s.draws := rfl

@[simp] theorem State.hostRead_version (w : Width) (off : Nat) : (s.hostRead w off).version = s.version := rfl
@[simp] theorem State.hostRead_ie (w : Width) (off : Nat) : (s.hostRead w off).ie = s.ie := rfl
@[simp] theorem State.hostRead_done (w : Width) (off : Nat) : (s.hostRead w off).done = s.done := rfl
@[simp] theorem State.hostRead_fallback (w : Width) (off : Nat) : (s.hostRead w off).fallback = s.fallback := rfl
@[simp] theorem State.hostRead_werr (w : Width) (off : Nat) : (s.hostRead w off).werr = s.werr := rfl
@[simp] theorem State.hostRead_err (w : Width) (off : Nat) : (s.hostRead w off).err = s.err := rfl
@[simp] theorem State.hostRead_inLen (w : Width) (off : Nat) : (s.hostRead w off).inLen = s.inLen := rfl
@[simp] theorem State.hostRead_outLen (w : Width) (off : Nat) : (s.hostRead w off).outLen = s.outLen := rfl
@[simp] theorem State.hostRead_seq (w : Width) (off : Nat) : (s.hostRead w off).seq = s.seq := rfl
@[simp] theorem State.hostRead_crc (w : Width) (off : Nat) : (s.hostRead w off).crc = s.crc := rfl
@[simp] theorem State.hostRead_retcode (w : Width) (off : Nat) : (s.hostRead w off).retcode = s.retcode := rfl
@[simp] theorem State.hostRead_rxSeq (w : Width) (off : Nat) : (s.hostRead w off).rxSeq = s.rxSeq := rfl
@[simp] theorem State.hostRead_rxCmd (w : Width) (off : Nat) : (s.hostRead w off).rxCmd = s.rxCmd := rfl
@[simp] theorem State.hostRead_rxCrc (w : Width) (off : Nat) : (s.hostRead w off).rxCrc = s.rxCrc := rfl
@[simp] theorem State.hostRead_frameLen (w : Width) (off : Nat) : (s.hostRead w off).frameLen = s.frameLen := rfl
@[simp] theorem State.hostRead_param (w : Width) (off : Nat) : (s.hostRead w off).param = s.param := rfl
@[simp] theorem State.hostRead_key (w : Width) (off : Nat) : (s.hostRead w off).key = s.key := rfl
@[simp] theorem State.hostRead_mem (w : Width) (off : Nat) : (s.hostRead w off).mem = s.mem := rfl
@[simp] theorem State.hostRead_pend (w : Width) (off : Nat) : (s.hostRead w off).pend = s.pend := rfl
@[simp] theorem State.hostRead_delay (w : Width) (off : Nat) : (s.hostRead w off).delay = s.delay := rfl
@[simp] theorem State.hostRead_inputs (w : Width) (off : Nat) : (s.hostRead w off).inputs = s.inputs := rfl
@[simp] theorem State.hostRead_rdata (w : Width) (off : Nat) : (s.hostRead w off).rdata = some (s.readData w off) := rfl
@[simp] theorem State.hostRead_draws (w : Width) (off : Nat) : (s.hostRead w off).draws = s.draws + 1 := rfl

@[simp] theorem State.storeResponse_version (r : Response) (t : Bytes) (fb : Bool) : (s.storeResponse r t fb).version = s.version := rfl
@[simp] theorem State.storeResponse_ie (r : Response) (t : Bytes) (fb : Bool) : (s.storeResponse r t fb).ie = s.ie := rfl
@[simp] theorem State.storeResponse_done (r : Response) (t : Bytes) (fb : Bool) : (s.storeResponse r t fb).done = s.done := rfl
@[simp] theorem State.storeResponse_fallback (r : Response) (t : Bytes) (fb : Bool) : (s.storeResponse r t fb).fallback = fb := rfl
@[simp] theorem State.storeResponse_werr (r : Response) (t : Bytes) (fb : Bool) : (s.storeResponse r t fb).werr = s.werr := rfl
@[simp] theorem State.storeResponse_err (r : Response) (t : Bytes) (fb : Bool) : (s.storeResponse r t fb).err = s.err := rfl
@[simp] theorem State.storeResponse_inLen (r : Response) (t : Bytes) (fb : Bool) : (s.storeResponse r t fb).inLen = s.inLen := rfl
@[simp] theorem State.storeResponse_outLen (r : Response) (t : Bytes) (fb : Bool) : (s.storeResponse r t fb).outLen = BitVec.ofNat 32 t.length := rfl
@[simp] theorem State.storeResponse_seq (r : Response) (t : Bytes) (fb : Bool) : (s.storeResponse r t fb).seq = s.seq := rfl
@[simp] theorem State.storeResponse_crc (r : Response) (t : Bytes) (fb : Bool) : (s.storeResponse r t fb).crc = s.crc := rfl
@[simp] theorem State.storeResponse_retcode (r : Response) (t : Bytes) (fb : Bool) : (s.storeResponse r t fb).retcode = (if r.off = 4 then be32 (slice r.pay 0 4) else 0) := rfl
@[simp] theorem State.storeResponse_rxSeq (r : Response) (t : Bytes) (fb : Bool) : (s.storeResponse r t fb).rxSeq = be32 (slice r.hdr 4 8) := rfl
@[simp] theorem State.storeResponse_rxCmd (r : Response) (t : Bytes) (fb : Bool) : (s.storeResponse r t fb).rxCmd = be32 (slice r.hdr 8 12) := rfl
@[simp] theorem State.storeResponse_rxCrc (r : Response) (t : Bytes) (fb : Bool) : (s.storeResponse r t fb).rxCrc = be32 (slice r.pay (r.len - 8) (r.len - 4)) := rfl
@[simp] theorem State.storeResponse_frameLen (r : Response) (t : Bytes) (fb : Bool) : (s.storeResponse r t fb).frameLen = BitVec.ofNat 32 (hdrLen + r.len) := rfl
@[simp] theorem State.storeResponse_param (r : Response) (t : Bytes) (fb : Bool) : (s.storeResponse r t fb).param = s.param := rfl
@[simp] theorem State.storeResponse_key (r : Response) (t : Bytes) (fb : Bool) : (s.storeResponse r t fb).key = s.key := rfl
@[simp] theorem State.storeResponse_mem (r : Response) (t : Bytes) (fb : Bool) : (s.storeResponse r t fb).mem = s.mem.writeBytes outBase t := rfl
@[simp] theorem State.storeResponse_pend (r : Response) (t : Bytes) (fb : Bool) : (s.storeResponse r t fb).pend = s.pend := rfl
@[simp] theorem State.storeResponse_delay (r : Response) (t : Bytes) (fb : Bool) : (s.storeResponse r t fb).delay = s.delay := rfl
@[simp] theorem State.storeResponse_inputs (r : Response) (t : Bytes) (fb : Bool) : (s.storeResponse r t fb).inputs = s.inputs := rfl
@[simp] theorem State.storeResponse_rdata (r : Response) (t : Bytes) (fb : Bool) : (s.storeResponse r t fb).rdata = s.rdata := rfl
@[simp] theorem State.storeResponse_draws (r : Response) (t : Bytes) (fb : Bool) : (s.storeResponse r t fb).draws = s.draws := rfl

@[simp] theorem State.platformReset_version : (s.platformReset).version = 0 := rfl
@[simp] theorem State.platformReset_ie : (s.platformReset).ie = false := rfl
@[simp] theorem State.platformReset_done : (s.platformReset).done = false := rfl
@[simp] theorem State.platformReset_fallback : (s.platformReset).fallback = false := rfl
@[simp] theorem State.platformReset_werr : (s.platformReset).werr = false := rfl
@[simp] theorem State.platformReset_err : (s.platformReset).err = .none := rfl
@[simp] theorem State.platformReset_inLen : (s.platformReset).inLen = 0 := rfl
@[simp] theorem State.platformReset_outLen : (s.platformReset).outLen = 0 := rfl
@[simp] theorem State.platformReset_seq : (s.platformReset).seq = 1 := rfl
@[simp] theorem State.platformReset_crc : (s.platformReset).crc = 0 := rfl
@[simp] theorem State.platformReset_retcode : (s.platformReset).retcode = 0 := rfl
@[simp] theorem State.platformReset_rxSeq : (s.platformReset).rxSeq = 0 := rfl
@[simp] theorem State.platformReset_rxCmd : (s.platformReset).rxCmd = 0 := rfl
@[simp] theorem State.platformReset_rxCrc : (s.platformReset).rxCrc = 0 := rfl
@[simp] theorem State.platformReset_frameLen : (s.platformReset).frameLen = 0 := rfl
@[simp] theorem State.platformReset_param : (s.platformReset).param = s.param := rfl
@[simp] theorem State.platformReset_key : (s.platformReset).key = Vector.replicate 16 0 := rfl
@[simp] theorem State.platformReset_mem : (s.platformReset).mem = [] := rfl
@[simp] theorem State.platformReset_pend : (s.platformReset).pend = none := rfl
@[simp] theorem State.platformReset_delay : (s.platformReset).delay = 0 := rfl
@[simp] theorem State.platformReset_inputs : (s.platformReset).inputs = s.inputs := rfl
@[simp] theorem State.platformReset_rdata : (s.platformReset).rdata = s.rdata := rfl
@[simp] theorem State.platformReset_draws : (s.platformReset).draws = s.draws := rfl

end

end Sys2Proof.Machine
end

