-- ==== Sys2Proof/Laws/Memory.lean ====
section
/-! SUPPORT. The memory: a read after a write, and the canonical form. -/

namespace Sys2Proof.Machine

open Sys2Proof

@[simp] theorem Memory.read_nil (a : Nat) : Memory.read [] a = none := rfl

theorem Memory.read_cons (c : Host.Cell) (m : Memory) (a : Nat) :
    Memory.read (c :: m) a = if c.1 = a then some c.2 else Memory.read m a := rfl

/-- A read gives what the last write to the same offset left, and a write leaves every other offset alone. -/
theorem Memory.read_write (m : Memory) (a : Nat) (b : Byte) (x : Nat) :
    (Memory.write m a b).read x = if x = a then some b else m.read x := by
  induction m with
  | nil =>
    by_cases hx : x = a
    · simp [Memory.write, Memory.read_cons, hx]
    · simp [Memory.write, Memory.read_cons, hx, Ne.symm hx]
  | cons c m ih =>
    by_cases hx : x = a
    · subst hx
      simp only [Memory.write, if_true]
      split_ifs with h1 h2
      · simp [Memory.read_cons]
      · simp [Memory.read_cons]
      · rw [Memory.read_cons, if_neg (by omega), ih, if_pos rfl]
    · simp only [Memory.write, if_neg hx]
      split_ifs with h1 h2
      · simp [Memory.read_cons, Ne.symm hx]
      · simp [Memory.read_cons, Ne.symm hx, ← h2]
      · rw [Memory.read_cons, ih, if_neg hx, Memory.read_cons]

@[simp] theorem Memory.read_write_same (m : Memory) (a : Nat) (b : Byte) : (Memory.write m a b).read a = some b := by
  simp [Memory.read_write]

theorem Memory.read_write_other (m : Memory) {a x : Nat} (b : Byte) (h : x ≠ a) :
    (Memory.write m a b).read x = m.read x := by
  simp [Memory.read_write, h]

@[simp] theorem Memory.writeBytes_nil (m : Memory) (a : Nat) : Memory.writeBytes m a [] = m := rfl

theorem Memory.writeBytes_cons (m : Memory) (a : Nat) (b : Byte) (bs : Bytes) :
    Memory.writeBytes m a (b :: bs) = Memory.writeBytes (m.write a b) (a + 1) bs := rfl

/-- Outside the bytes a string write stores, every byte reads as before. -/
theorem Memory.read_writeBytes_outside (m : Memory) (a : Nat) (bs : Bytes) (x : Nat) (h : ¬(a ≤ x ∧ x < a + bs.length)) :
    (Memory.writeBytes m a bs).read x = m.read x := by
  induction bs generalizing m a with
  | nil => rfl
  | cons b bs ih =>
    simp only [List.length_cons] at h
    rw [Memory.writeBytes_cons, ih _ _ (by omega), Memory.read_write_other _ _ (by omega)]

/-- Inside them, each byte reads as the string's. -/
theorem Memory.read_writeBytes_inside (m : Memory) (a : Nat) (bs : Bytes) (i : Nat) (h : i < bs.length) :
    (Memory.writeBytes m a bs).read (a + i) = some bs[i] := by
  induction bs generalizing m a i with
  | nil => simp at h
  | cons b bs ih =>
    rw [Memory.writeBytes_cons]
    cases i with
    | zero => rw [Memory.read_writeBytes_outside _ _ _ _ (by omega)]; simp
    | succ i =>
      rw [show a + (i + 1) = (a + 1) + i by omega, ih _ _ _ (by simpa using h)]
      simp

/-- The offsets a write can leave listed. -/
theorem Memory.mem_write {m : Memory} {a : Nat} {b : Byte} {c : Host.Cell} (h : c ∈ Memory.write m a b) :
    c = (a, b) ∨ c ∈ m := by
  induction m with
  | nil => simp_all [Memory.write]
  | cons d m ih =>
    simp only [Memory.write] at h
    split_ifs at h <;> simp only [List.mem_cons] at h ⊢ <;> tauto

/-- Writing a byte keeps the canonical form. -/
theorem Memory.write_wf {m : Memory} (h : m.wf) (a : Nat) (b : Byte) : (Memory.write m a b).wf := by
  induction m with
  | nil => simp [Memory.write, Memory.wf]
  | cons c m ih =>
    obtain ⟨hc, hm⟩ := List.pairwise_cons.mp h
    simp only [Memory.write]
    split_ifs with h1 h2
    · refine List.pairwise_cons.mpr ⟨fun d hd => ?_, h⟩
      rcases List.mem_cons.mp hd with rfl | hd
      · exact h1
      · exact lt_trans h1 (hc d hd)
    · refine List.pairwise_cons.mpr ⟨fun d hd => ?_, hm⟩
      have := hc d hd
      simp only at *; omega
    · refine List.pairwise_cons.mpr ⟨fun d hd => ?_, ih hm⟩
      rcases Memory.mem_write hd with rfl | hd
      · simp only; omega
      · exact hc d hd

/-- Writing a byte string keeps the canonical form. -/
theorem Memory.writeBytes_wf {m : Memory} (h : m.wf) (a : Nat) (bs : Bytes) : (Memory.writeBytes m a bs).wf := by
  induction bs generalizing m a with
  | nil => exact h
  | cons b bs ih => exact ih (Memory.write_wf h a b) _

/-- The offsets a string write can leave listed. -/
theorem Memory.mem_writeBytes {m : Memory} {a : Nat} {bs : Bytes} {c : Host.Cell} (h : c ∈ Memory.writeBytes m a bs) :
    (a ≤ c.1 ∧ c.1 < a + bs.length) ∨ c ∈ m := by
  induction bs generalizing m a with
  | nil => exact .inr h
  | cons b bs ih =>
    rcases ih h with h | h
    · left; simp only [List.length_cons]; omega
    · rcases Memory.mem_write h with rfl | h
      · left; simp
      · exact .inr h

/-- The memory right after reset is canonical. -/
theorem State.reset_mem_wf : State.reset.mem.wf := List.Pairwise.nil

/-- Below the first offset listed, a canonical memory has no value. -/
theorem Memory.read_below {m : Memory} {c : Host.Cell} (h : Memory.wf (c :: m)) {x : Nat} (hx : x < c.1) :
    Memory.read (c :: m) x = none := by
  induction m generalizing c with
  | nil => rw [Memory.read_cons, if_neg (by omega), Memory.read_nil]
  | cons d m ih =>
    obtain ⟨h1, h2⟩ := List.pairwise_cons.mp h
    have hd : c.1 < d.1 := h1 d (by simp)
    rw [Memory.read_cons, if_neg (by omega), ih h2 (by omega)]

/-- A canonical memory lists an offset once. -/
theorem Memory.read_tail_head {m : Memory} {c : Host.Cell} (h : Memory.wf (c :: m)) : Memory.read m c.1 = none := by
  cases m with
  | nil => rfl
  | cons d m =>
    obtain ⟨h1, h2⟩ := List.pairwise_cons.mp h
    exact Memory.read_below h2 (h1 d (by simp))

/-- In canonical form, two memories that read alike at every offset are one list. -/
theorem Memory.ext_of_wf {m n : Memory} (hm : m.wf) (hn : n.wf) (h : ∀ a, m.read a = n.read a) : m = n := by
  induction m generalizing n with
  | nil =>
    cases n with
    | nil => rfl
    | cons d n => have := h d.1; simp [Memory.read_cons] at this
  | cons c m ih =>
    cases n with
    | nil => have := h c.1; simp [Memory.read_cons] at this
    | cons d n =>
      have hcd : c.1 = d.1 := by
        rcases lt_trichotomy c.1 d.1 with hlt | heq | hgt
        · have := h c.1; rw [Memory.read_below hn hlt] at this; simp [Memory.read_cons] at this
        · exact heq
        · have := h d.1; rw [Memory.read_below hm hgt] at this; simp [Memory.read_cons] at this
      have hval : c.2 = d.2 := by have := h c.1; simpa [Memory.read_cons, hcd] using this
      have hc : c = d := Prod.ext hcd hval
      subst hc
      congr 1
      refine ih (List.pairwise_cons.mp hm).2 (List.pairwise_cons.mp hn).2 fun a => ?_
      by_cases ha : c.1 = a
      · subst ha; rw [Memory.read_tail_head hm, Memory.read_tail_head hn]
      · have := h a; simpa [Memory.read_cons, ha] using this

end Sys2Proof.Machine
end

