-- ==== Sys2Proof/Laws/Ops.lean ====
section
/-! SUPPORT. What each shared operation can do, said once: the engine's memory primitives, the two endings of a command, the
acceptance, the reset. -/

namespace Sys2Proof.Machine

open Sys2Proof

@[simp] theorem State.bufSize_complete (s : State) : s.complete.bufSize = s.bufSize := rfl
@[simp] theorem State.bufSize_raise (s : State) (c : ErrCode) : (s.raise c).bufSize = s.bufSize := rfl
@[simp] theorem State.bufSize_storeOut (s : State) (bs : Bytes) : (s.storeOut bs).bufSize = s.bufSize := rfl

theorem State.bufSize_lt (s : State) : s.bufSize < 2 ^ 32 := s.param.isLt

@[simp] theorem State.memRead_length (s : State) (a n : Nat) : (s.memRead a n).length = n := by
  simp [State.memRead]

@[simp] theorem State.memRead_getElem (s : State) (a n i : Nat) (h : i < (s.memRead a n).length) :
    (s.memRead a n)[i] = s.readByte (a + i) := by
  simp [State.memRead]

@[simp] theorem State.input_length (s : State) : s.input.length = s.inLen.toNat := by simp [State.input]

/-- A written byte reads as it was written, whatever the draws. -/
theorem State.readByte_of_read {s : State} {a : Nat} {b : Byte} (h : s.mem.read a = some b) : s.readByte a = b := by
  simp [State.readByte, h]

/-- MemRead depends on the bytes it covers and, for unwritten ones, on the event's draws, and on nothing else. -/
theorem State.memRead_congr {s t : State} {a n : Nat} (hd : t.draws = s.draws)
    (h : ∀ i, i < n → t.mem.read (a + i) = s.mem.read (a + i)) : t.memRead a n = s.memRead a n := by
  unfold State.memRead
  refine List.map_congr_left fun i hi => ?_
  simp [State.readByte, hd, h i (List.mem_range.mp hi)]

/-- A MemRead of bytes that hold a given string gives that string. -/
theorem State.memRead_eq_of_read {s : State} {a : Nat} {bs : Bytes}
    (h : ∀ (i : Nat) (hi : i < bs.length), s.mem.read (a + i) = some bs[i]) : s.memRead a bs.length = bs := by
  refine List.ext_getElem (by simp) fun i h1 h2 => ?_
  rw [State.memRead_getElem]
  exact State.readByte_of_read (h i h2)

/-- What a MemWrite leaves at each offset. -/
theorem State.read_memWrite (s : State) (a : Nat) (bs : Bytes) :
    (∀ (i : Nat) (h : i < bs.length), (s.memWrite a bs).mem.read (a + i) = some bs[i]) ∧
      SameMemoryOutside s (s.memWrite a bs) a bs.length :=
  ⟨fun i h => Memory.read_writeBytes_inside _ _ _ i h, fun x hx => Memory.read_writeBytes_outside _ _ _ x hx⟩

/-- What the shared result writes leave: the result in OUT, and every other byte as before. -/
theorem State.storeOut_spec (s : State) (bs : Bytes) (h : bs.length < 2 ^ 32) :
    (s.storeOut bs).outIs bs ∧ SameMemoryOutside s (s.storeOut bs) outBase bs.length :=
  ⟨⟨by simpa using h, fun i hi => Memory.read_writeBytes_inside _ _ _ i hi⟩,
    fun x hx => Memory.read_writeBytes_outside _ _ _ x hx⟩

/-- The error completion ends the command with its code. -/
theorem State.raise_ended (s : State) (c : ErrCode) : Ended (s.raise c) c := ⟨rfl, rfl, rfl⟩

/-- The error completion changes only STATUS and PEND. -/
theorem State.raise_onlyStatus (s : State) (c : ErrCode) : OnlyStatusChanged s (s.raise c) :=
  ⟨⟨rfl, rfl, rfl, rfl, rfl, rfl, rfl, rfl, rfl⟩, ⟨rfl, rfl, rfl, rfl, rfl⟩, rfl, rfl, rfl, rfl, fun _ => rfl⟩

/-- The successful ending ends the command without an error. -/
theorem State.complete_ended (s : State) : Ended s.complete .none := ⟨rfl, rfl, rfl⟩

/-- The successful ending changes only STATUS and PEND. -/
theorem State.complete_onlyStatus (s : State) : OnlyStatusChanged s s.complete :=
  ⟨⟨rfl, rfl, rfl, rfl, rfl, rfl, rfl, rfl, rfl⟩, ⟨rfl, rfl, rfl, rfl, rfl⟩, rfl, rfl, rfl, rfl, fun _ => rfl⟩

/-- The shared result writes change OUT and OUT_LEN only. -/
theorem State.storeOut_settings (s : State) (bs : Bytes) : SameSettings s (s.storeOut bs) :=
  ⟨rfl, rfl, rfl, rfl, rfl, rfl, rfl, rfl, rfl⟩

/-- The result writes of PARSE change no setting. -/
theorem State.storeResponse_settings (s : State) (r : Response) (t : Bytes) (fb : Bool) :
    SameSettings s (s.storeResponse r t fb) :=
  ⟨rfl, rfl, rfl, rfl, rfl, rfl, rfl, rfl, rfl⟩

/-- Every memory-writing operation keeps the canonical form. -/
theorem State.memWrite_wf {s : State} (h : s.mem.wf) (a : Nat) (bs : Bytes) : (s.memWrite a bs).mem.wf :=
  Memory.writeBytes_wf h a bs

theorem State.storeOut_wf {s : State} (h : s.mem.wf) (bs : Bytes) : (s.storeOut bs).mem.wf := Memory.writeBytes_wf h _ bs

theorem State.storeResponse_wf {s : State} (h : s.mem.wf) (r : Response) (t : Bytes) (fb : Bool) :
    (s.storeResponse r t fb).mem.wf := Memory.writeBytes_wf h _ t

theorem State.platformReset_wf (s : State) : s.platformReset.mem.wf := List.Pairwise.nil

theorem State.writeLane_wf {s : State} (h : s.mem.wf) (a : Nat) (b : Byte) : (s.writeLane a b).mem.wf := by
  unfold State.writeLane
  split <;> first | exact h | exact Memory.write_wf h a b

theorem State.writeRegister_mem (s : State) (off : Nat) (v : Word) : (s.writeRegister off v).mem = s.mem := by
  unfold State.writeRegister
  split <;> rfl

theorem State.storeData_wf {s : State} (h : s.mem.wf) (w : Width) (off : Nat) (data : Word) :
    (s.storeData w off data).mem.wf := by
  have lanes : ∀ (js : List Nat) (t : State), t.mem.wf →
      (js.foldl (fun t j => t.writeLane (off + j) (laneOf data j)) t).mem.wf := by
    intro js
    induction js with
    | nil => exact fun t ht => ht
    | cons j js ih => exact fun t ht => ih _ (State.writeLane_wf ht _ _)
  unfold State.storeData
  split_ifs
  · rw [State.writeRegister_mem]; exact h
  · exact h
  · exact h
  · exact lanes _ _ h

theorem State.hostWrite_wf {s : State} (h : s.mem.wf) (w : Width) (off : Nat) (data : Word) :
    (s.hostWrite w off data).mem.wf := by
  unfold State.hostWrite
  split_ifs
  · exact h
  · exact State.storeData_wf h w off data

/-- A transaction answers a next state exactly when its offset is in the window; it is then the read's or the write's. -/
theorem State.hostAccess_next {s t : State} {a : Access} (h : s.hostAccess a = .next t) :
    (∃ w off, a = .read w off ∧ off < windowSize ∧ t = s.hostRead w off) ∨
      (∃ w off data, a = .write w off data ∧ off < windowSize ∧ t = s.hostWrite w off data) := by
  cases a with
  | read w off =>
    simp only [State.hostAccess] at h
    split_ifs at h with ho
    exact .inl ⟨w, off, rfl, ho, (Host.Outcome.next.inj h).symm⟩
  | write w off data =>
    simp only [State.hostAccess] at h
    split_ifs at h with ho
    exact .inr ⟨w, off, data, rfl, ho, (Host.Outcome.next.inj h).symm⟩

/-- One turn of a POLL is a 32-bit read, after which the POLL is over or waits at the head again. -/
theorem State.pollOnce_next {s t : State} {off : Nat} {mask value : Word} (h : s.pollOnce off mask value = .next t) :
    off < windowSize ∧ (t = s.hostRead .w32 off ∨
      t = { s.hostRead .w32 off with inputs := .poll off mask value :: s.inputs }) := by
  unfold State.pollOnce at h
  split_ifs at h with ho hm
  · exact ⟨ho, .inl (Host.Outcome.next.inj h).symm⟩
  · exact ⟨ho, .inr (Host.Outcome.next.inj h).symm⟩

/-- What the outside's turn can do: nothing, a read, a write, a POLL that goes on, or a reset. -/
theorem State.outsideTurn_next {s t : State} (h : s.outsideTurn = .next t) :
    (s.inputs = [] ∧ t = s) ∨
    (∃ i rest w off, s.inputs = i :: rest ∧ off < windowSize ∧ t = ({ s with inputs := rest }).hostRead w off) ∨
    (∃ i rest w off data, s.inputs = i :: rest ∧ off < windowSize ∧
      t = ({ s with inputs := rest }).hostWrite w off data) ∨
    (∃ rest off mask value, s.inputs = .poll off mask value :: rest ∧ off < windowSize ∧
      t = { s.hostRead .w32 off with rdata := some (({ s with inputs := rest }).readData .w32 off) }) ∨
    (∃ rest, s.inputs = .reset :: rest ∧ t = ({ s with inputs := rest }).platformReset) := by
  unfold State.outsideTurn at h
  split at h
  · next he => exact .inl ⟨he, (Host.Outcome.next.inj h).symm⟩
  · next i rest he =>
    cases i with
    | access a =>
      rcases State.hostAccess_next h with ⟨w, off, _, ho, ht⟩ | ⟨w, off, data, _, ho, ht⟩
      · exact .inr (.inl ⟨_, rest, w, off, he, ho, ht⟩)
      · exact .inr (.inr (.inl ⟨_, rest, w, off, data, he, ho, ht⟩))
    | poll off mask value =>
      obtain ⟨ho, ht | ht⟩ := State.pollOnce_next h
      · exact .inr (.inl ⟨_, rest, .w32, off, he, ho, ht⟩)
      · refine .inr (.inr (.inr (.inl ⟨rest, off, mask, value, he, ho, ?_⟩)))
        rw [ht, State.hostRead, State.hostRead, he]
    | reset => exact .inr (.inr (.inr (.inr ⟨rest, he, (Host.Outcome.next.inj h).symm⟩)))

/-- What a step can do: the engine's step on a pending word whose delay has run out, or the outside's turn. -/
theorem step_cases (s : State) :
    (∃ w, s.pend = some w ∧ s.delay = 0 ∧ step s = engineStep w s) ∨
    (∃ w n, s.pend = some w ∧ s.delay = n + 1 ∧ step s = ({ s with delay := n }).outsideTurn) ∨
    (s.pend = none ∧ step s = s.outsideTurn) := by
  unfold step advance
  cases hp : s.pend with
  | none => exact .inr (.inr ⟨rfl, rfl⟩)
  | some w =>
    cases hd : s.delay with
    | zero => exact .inl ⟨w, rfl, rfl, rfl⟩
    | succ n => exact .inr (.inl ⟨w, n, rfl, rfl, rfl⟩)

end Sys2Proof.Machine
end

