-- ==== Sys2Proof/Laws/Bus.lean ====
section
/-! SUPPORT. The host's accesses: which region an offset is in, what a read answers, what a write does, lane by lane. -/

namespace Sys2Proof.Machine

open Sys2Proof

theorem width_bytes_bounds (w : Width) : 1 ≤ w.bytes ∧ w.bytes ≤ 4 := by cases w <;> decide

/-- Lane j of the value of a byte string is byte j, and 0 past its end (20_memory.md R67). -/
theorem leWord_lane (bs : Bytes) :
    ∀ j, j < 4 → (leWord bs).extractLsb' (8 * j) 8 = if h : j < bs.length then bs[j] else 0 := by
  induction bs with
  | nil => intro j _; simp [leWord]
  | cons b bs ih =>
    intro j hj
    apply BitVec.eq_of_getLsbD_eq
    intro i hi
    rw [leWord]
    simp only [BitVec.getLsbD_extractLsb', hi, decide_true, Bool.true_and, BitVec.getLsbD_or, BitVec.getLsbD_setWidth,
      BitVec.getLsbD_shiftLeft]
    cases j with
    | zero =>
      have : i < 32 := by omega
      simp [hi, this]
    | succ j =>
      have h1 : 8 * (j + 1) + i < 32 := by omega
      have h2 : ¬ 8 * (j + 1) + i < 8 := by omega
      have h3 : b.getLsbD (8 * (j + 1) + i) = false := BitVec.getLsbD_of_ge _ _ (by omega)
      have h4 : 8 * (j + 1) + i - 8 = 8 * j + i := by omega
      have h5 := congrArg (fun v => BitVec.getLsbD v i) (ih j (by omega))
      simp only [BitVec.getLsbD_extractLsb', hi, decide_true, Bool.true_and] at h5
      rw [h3, h4, h5]
      simp only [h1, h2, decide_true, decide_false, Bool.not_false, Bool.true_and, Bool.and_false, Bool.false_or,
        List.length_cons, Nat.add_lt_add_iff_right, List.getElem_cons_succ]

theorem leWord_zeros (n : Nat) : leWord (zeros n) = 0 := by
  induction n with
  | zero => rfl
  | succ n ih => rw [zeros, List.replicate_succ, leWord, ← zeros, ih]; rfl

theorem region_bounds : registersEnd = 0x34 ∧ keyBase = 0x40 ∧ inBase = 0x1000 ∧ outBase = 0x2000 := ⟨rfl, rfl, rfl, rfl⟩

theorem regionOf_register {b off : Nat} (h : off < 0x34) : regionOf b off = .register := by
  unfold regionOf; exact if_pos h

theorem regionOf_key {b off : Nat} (h1 : 0x40 ≤ off) (h2 : off < 0x50) : regionOf b off = .key := by
  obtain ⟨e1, e2, e3, e4⟩ := region_bounds
  unfold regionOf
  split_ifs <;> first | rfl | omega

theorem regionOf_inBuf {b off : Nat} (h1 : inBase ≤ off) (h2 : off < inBase + b) : regionOf b off = .inBuf := by
  obtain ⟨e1, e2, e3, e4⟩ := region_bounds
  unfold regionOf
  split_ifs <;> first | rfl | omega

theorem regionOf_outBuf {b off : Nat} (hb : b ≤ 4096) (h1 : outBase ≤ off) (h2 : off < outBase + b) :
    regionOf b off = .outBuf := by
  obtain ⟨e1, e2, e3, e4⟩ := region_bounds
  unfold regionOf
  split_ifs <;> first | rfl | omega

theorem regionOf_unmapped {b off : Nat} (hb : b ≤ 4096)
    (h : (0x34 ≤ off ∧ off < 0x40) ∨ (0x50 ≤ off ∧ off < inBase) ∨ (inBase + b ≤ off ∧ off < outBase) ∨
      outBase + b ≤ off) : regionOf b off = .unmapped := by
  obtain ⟨e1, e2, e3, e4⟩ := region_bounds
  unfold regionOf
  split_ifs <;> first | rfl | omega

/-- An offset of IN's region is below its end, whatever else holds. -/
theorem inBuf_of_regionOf {b off : Nat} (h : regionOf b off = .inBuf) : inBase ≤ off ∧ off < inBase + b := by
  unfold regionOf at h
  split_ifs at h
  assumption

section
variable (s : State) (w : Width) (off : Nat) (data : Word)

/-- A read of the registers (20_memory.md R64). -/
theorem State.readData_register (h : off < 0x34) :
    s.readData w off = if w = .w32 ∧ off % 4 = 0 then s.readRegister off else 0 := by
  unfold State.readData; exact if_pos h

/-- A misaligned read outside the registers (20_memory.md R65). -/
theorem State.readData_misaligned (h : 0x34 ≤ off) (ha : off % w.bytes ≠ 0) : s.readData w off = 0 := by
  unfold State.readData
  rw [if_neg (show ¬ off < registersEnd by simp only [registersEnd]; omega), if_pos ha]

/-- An aligned read outside the registers, lane by lane (20_memory.md R65, R67). -/
theorem State.readData_lanes (h : 0x34 ≤ off) (ha : off % w.bytes = 0) :
    s.readData w off = leWord ((List.range w.bytes).map fun j => s.readLane (off + j)) := by
  unfold State.readData
  rw [if_neg (show ¬ off < registersEnd by simp only [registersEnd]; omega), if_neg (not_not.mpr ha)]

/-- A read outside the registers all of whose lanes are 0 answers 0. -/
theorem State.readData_zero_lanes (h : 0x34 ≤ off) (hl : ∀ j, j < w.bytes → s.readLane (off + j) = 0) :
    s.readData w off = 0 := by
  by_cases ha : off % w.bytes = 0
  · rw [State.readData_lanes s w off h ha,
      show ((List.range w.bytes).map fun j => s.readLane (off + j)) = zeros w.bytes from ?_, leWord_zeros]
    refine List.eq_replicate_iff.mpr ⟨by simp, fun b hb => ?_⟩
    obtain ⟨j, hj, rfl⟩ := List.mem_map.mp hb
    exact hl j (List.mem_range.mp hj)
  · exact State.readData_misaligned s w off h ha

/-- A write to the registers (20_memory.md R64). -/
theorem State.storeData_register (h : off < 0x34) :
    s.storeData w off data = if w = .w32 ∧ off % 4 = 0 then s.writeRegister off data else s := by
  unfold State.storeData; exact if_pos h

/-- A misaligned write outside the registers (20_memory.md R65). -/
theorem State.storeData_misaligned (h : 0x34 ≤ off) (ha : off % w.bytes ≠ 0) : s.storeData w off data = s := by
  unfold State.storeData
  rw [if_neg (show ¬ off < registersEnd by simp only [registersEnd]; omega), if_pos ha]

/-- An aligned write outside the registers, lane by lane (20_memory.md R65, R67). -/
theorem State.storeData_lanes (h : 0x34 ≤ off) (ha : off % w.bytes = 0) :
    s.storeData w off data =
      (List.range w.bytes).foldl (fun t j => t.writeLane (off + j) (laneOf data j)) s := by
  unfold State.storeData
  rw [if_neg (show ¬ off < registersEnd by simp only [registersEnd]; omega), if_neg (not_not.mpr ha)]

/-- A write outside the registers that every lane ignores changes nothing. -/
theorem State.storeData_ignored (h : 0x34 ≤ off) (hl : ∀ j, j < w.bytes → ∀ b, s.writeLane (off + j) b = s) :
    s.storeData w off data = s := by
  have lanes : ∀ js : List Nat, (∀ j ∈ js, ∀ b, s.writeLane (off + j) b = s) →
      js.foldl (fun t j => t.writeLane (off + j) (laneOf data j)) s = s := by
    intro js
    induction js with
    | nil => exact fun _ => rfl
    | cons j js ih =>
      intro hj
      rw [List.foldl_cons, hj j (by simp), ih fun k hk => hj k (by simp [hk])]
  by_cases ha : off % w.bytes = 0
  · rw [State.storeData_lanes s w off data h ha]
    exact lanes _ fun j hj => hl j (List.mem_range.mp hj)
  · exact State.storeData_misaligned s w off data h ha

/-- A write while idle, inside the window. -/
theorem State.hostAccess_write_idle (hp : s.pend = none) (h : off < 0x3000) :
    s.hostAccess (.write w off data) = .next (s.storeData w off data) := by
  have hb : s.busy = false := by simp [State.busy, hp]
  simp only [State.hostAccess, State.hostWrite, hb]
  rw [if_pos (show off < windowSize from h), if_neg (by simp)]

/-- A write to STATUS, at any time. -/
theorem State.hostAccess_write_status :
    s.hostAccess (.write .w32 0x008 data) = .next (s.writeStatus data) := by
  simp [State.hostAccess, State.hostWrite, statusOffset, windowSize, State.storeData, registersEnd, State.writeRegister]

/-- What one lane of a write can do: nothing, a byte of KEY, or a byte of IN. -/
theorem State.writeLane_cases (a : Nat) (b : Byte) :
    s.writeLane a b = s ∨ (∃ k, s.writeLane a b = { s with key := k }) ∨
      (inBase ≤ a ∧ a < inBase + s.bufSize ∧ s.writeLane a b = { s with mem := s.mem.write a b }) := by
  unfold State.writeLane
  split
  · exact .inl rfl
  · exact .inr (.inl ⟨_, rfl⟩)
  · next h => exact .inr (.inr ⟨(inBuf_of_regionOf h).1, (inBuf_of_regionOf h).2, rfl⟩)
  · exact .inl rfl
  · exact .inl rfl

/-- What the lanes of a write leave: KEY and IN aside, everything stays; only offsets of IN become listed; outside IN every byte
reads as before, and no written byte becomes unwritten. -/
theorem State.writeLanes_cases (js : List Nat) :
    ∃ k m, js.foldl (fun t j => t.writeLane (off + j) (laneOf data j)) s = { s with key := k, mem := m } ∧
      (∀ c ∈ m, c ∈ s.mem ∨ (inBase ≤ c.1 ∧ c.1 < inBase + s.bufSize)) ∧
      ∀ x, Memory.read m x = s.mem.read x ∨ (inBase ≤ x ∧ x < inBase + s.bufSize) := by
  induction js generalizing s with
  | nil => exact ⟨s.key, s.mem, rfl, fun c hc => .inl hc, fun x => .inl rfl⟩
  | cons j js ih =>
    rw [List.foldl_cons]
    rcases State.writeLane_cases s (off + j) (laneOf data j) with h | ⟨k, h⟩ | ⟨h1, h2, h⟩
    · rw [h]; exact ih s
    · rw [h]
      obtain ⟨k', m, h', hl, hr⟩ := ih { s with key := k }
      exact ⟨k', m, h', hl, hr⟩
    · rw [h]
      obtain ⟨k', m, h', hl, hr⟩ := ih { s with mem := s.mem.write (off + j) (laneOf data j) }
      refine ⟨k', m, h', fun c hc => ?_, fun x => ?_⟩
      · rcases hl c hc with hc | hc
        · rcases Memory.mem_write hc with rfl | hc
          · exact .inr ⟨h1, h2⟩
          · exact .inl hc
        · exact .inr hc
      · rcases hr x with hx | hx
        · by_cases hxa : x = off + j
          · exact .inr ⟨by omega, by omega⟩
          · exact .inl (hx.trans (Memory.read_write_other _ _ hxa))
        · exact .inr hx

/-- What a write that the busy rule does not stop can do. -/
theorem State.storeData_cases :
    s.storeData w off data = s ∨ s.storeData w off data = s.writeCtrl data ∨ s.storeData w off data = s.accept data ∨
    s.storeData w off data = s.writeStatus data ∨ s.storeData w off data = { s with inLen := data } ∨
    s.storeData w off data = { s with seq := data } ∨
    ∃ k m, s.storeData w off data = { s with key := k, mem := m } ∧
      (∀ c ∈ m, c ∈ s.mem ∨ (inBase ≤ c.1 ∧ c.1 < inBase + s.bufSize)) ∧
      ∀ x, Memory.read m x = s.mem.read x ∨ (inBase ≤ x ∧ x < inBase + s.bufSize) := by
  by_cases h : off < 0x34
  · rw [State.storeData_register s w off data h]
    split_ifs
    · unfold State.writeRegister
      split <;> simp
    · exact .inl rfl
  · by_cases ha : off % w.bytes = 0
    · rw [State.storeData_lanes s w off data (by omega) ha]
      exact .inr (.inr (.inr (.inr (.inr (.inr (State.writeLanes_cases s off data _))))))
    · exact .inl (State.storeData_misaligned s w off data (by omega) ha)

/-- What a host write can do: while busy, set WERR or write STATUS; while idle, what `storeData` can. -/
theorem State.hostWrite_cases :
    (s.busy = true ∧ (s.hostWrite w off data = { s with werr := true } ∨ s.hostWrite w off data = s.writeStatus data ∨
      s.hostWrite w off data = s)) ∨
    (s.busy = false ∧ s.hostWrite w off data = s.storeData w off data) := by
  unfold State.hostWrite
  by_cases hb : s.busy = true
  · refine .inl ⟨hb, ?_⟩
    by_cases ho : off ≠ statusOffset
    · exact .inl (if_pos ⟨hb, ho⟩)
    · have ho' : off = 0x008 := not_not.mp ho
      rw [if_neg (fun h => ho h.2), State.storeData_register s w off data (by omega)]
      split_ifs
      · subst ho'; exact .inr (.inl rfl)
      · exact .inr (.inr rfl)
  · exact .inr ⟨by simpa using hb, if_neg (fun h => hb h.1)⟩

/-- A host write leaves the inputs and PARAM alone. -/
theorem State.hostWrite_inputs : (s.hostWrite w off data).inputs = s.inputs ∧ (s.hostWrite w off data).param = s.param := by
  rcases State.hostWrite_cases s w off data with ⟨-, h | h | h⟩ | ⟨-, h⟩ <;> rw [h] <;> try exact ⟨rfl, rfl⟩
  rcases State.storeData_cases s w off data with h | h | h | h | h | h | ⟨k, m, h, -⟩ <;> rw [h] <;> exact ⟨rfl, rfl⟩

end

end Sys2Proof.Machine
end

