-- ==== Sys2Proof/Laws/Bytes.lean ====
section
/-! SUPPORT. Byte strings: lengths, slices, big-endian fields. -/

namespace Sys2Proof.Machine

open Sys2Proof

@[simp] theorem slice_length (s : Bytes) (a b : Nat) : (slice s a b).length = min (b - a) (s.length - a) := by
  simp [slice]

@[simp] theorem toBE32_length (v : Word) : (toBE32 v).length = 4 := rfl

@[simp] theorem zeros_length (n : Nat) : (zeros n).length = n := by simp [zeros]

@[simp] theorem prefixBytes_length : prefixBytes.length = 4 := rfl

@[simp] theorem suffixBytes_length : suffixBytes.length = 4 := rfl

theorem versionHeader_length (v : Version) : (versionHeader v).length = if v = .v33 then 0 else 16 := by
  cases v <;> rfl

theorem hdrOut_eq (v : Version) : hdrOut v = if v = .v33 then 16 else 32 := by cases v <;> rfl

/-- A slice of a string whose first part ends where the slice begins. -/
theorem slice_append_right (s t : Bytes) (a b : Nat) (h : s.length ≤ a) :
    slice (s ++ t) a b = slice t (a - s.length) (b - s.length) := by
  unfold slice
  rw [List.drop_append, List.drop_eq_nil_of_le h, List.nil_append]
  congr 1
  omega

/-- A slice that stays inside the first part of a string. -/
theorem slice_append_left (s t : Bytes) (a b : Nat) (h : b ≤ s.length) : slice (s ++ t) a b = slice s a b := by
  unfold slice
  rw [List.drop_append, List.take_append_of_le_length (by simp; omega)]

/-- A slice that is a whole string. -/
theorem slice_full (s : Bytes) (b : Nat) (h : s.length ≤ b) : slice s 0 b = s := by
  simp [slice, List.take_of_length_le h]

/-- A slice of a MemRead is the MemRead of the slice. -/
theorem State.slice_memRead (s : State) (addr n a b : Nat) (hb : b ≤ n) :
    slice (s.memRead addr n) a b = s.memRead (addr + a) (b - a) := by
  refine List.ext_getElem (by simp; omega) fun i h1 h2 => ?_
  simp [slice, Nat.add_assoc]

end Sys2Proof.Machine
end

