-- ==== Sys2Proof/Laws/Cipher.lean ====
section
/-! SUPPORT. Blocks, ECB and padding: lengths, block positions, and what the cipher's being a permutation gives. -/

namespace Sys2Proof.Machine

open Sys2Proof

@[simp] theorem bytesOfBlock_length (b : Block) : (bytesOfBlock b).length = 16 := List.length_ofFn

theorem bytesOfBlock_getElem (b : Block) (i : Nat) (h : i < (bytesOfBlock b).length) (h' : i < 16) :
    (bytesOfBlock b)[i] = b[i] := List.getElem_ofFn h

theorem blockOfBytes_getElem (t : Bytes) (i : Nat) (h : i < 16) : (blockOfBytes t)[i] = t.getD i 0 :=
  Vector.getElem_ofFn h

@[simp] theorem blockOfBytes_bytesOfBlock (b : Block) : blockOfBytes (bytesOfBlock b) = b := by
  refine Vector.ext fun i hi => ?_
  have hl : i < (bytesOfBlock b).length := by rw [bytesOfBlock_length]; exact hi
  rw [blockOfBytes_getElem, List.getD_eq_getElem _ _ hl]
  exact bytesOfBlock_getElem b i hl hi

theorem bytesOfBlock_blockOfBytes {t : Bytes} (h : t.length = 16) : bytesOfBlock (blockOfBytes t) = t := by
  refine List.ext_getElem (by simp [h]) fun i h1 h2 => ?_
  refine (bytesOfBlock_getElem _ i h1 (by omega)).trans ?_
  rw [blockOfBytes_getElem, List.getD_eq_getElem _ _ h2]

/-- D undoes E (00_scope.md R8). -/
@[simp] theorem blockD_blockE (k : Key) (b : Block) : blockD k (blockE k b) = b := by simp [blockD, blockE]

/-- E undoes D (00_scope.md R8). -/
@[simp] theorem blockE_blockD (k : Key) (b : Block) : blockE k (blockD k b) = b := by simp [blockD, blockE]

@[simp] theorem ecb_length (f : Block → Block) (n : Nat) (t : Bytes) : (ecb f n t).length = 16 * n := by
  induction n generalizing t with
  | zero => rfl
  | succ n ih => simp [ecb, ih]; omega

/-- Block j of the output is `f` of block j of the input. -/
theorem slice_ecb (f : Block → Block) (n : Nat) (t : Bytes) (j : Nat) (h : j < n) :
    slice (ecb f n t) (16 * j) (16 * j + 16) = bytesOfBlock (f (blockOfBytes (slice t (16 * j) (16 * j + 16)))) := by
  induction n generalizing t j with
  | zero => omega
  | succ n ih =>
    cases j with
    | zero => simp [ecb, slice, blockLen]
    | succ j =>
      rw [ecb, slice_append_right _ _ _ _ (by rw [bytesOfBlock_length]; omega), bytesOfBlock_length,
        show 16 * (j + 1) - 16 = 16 * j by omega, show 16 * (j + 1) + 16 - 16 = 16 * j + 16 by omega,
        ih _ _ (by omega)]
      simp only [slice, blockLen, List.drop_drop]
      rw [show 16 + 16 * j = 16 * (j + 1) by omega, show 16 * j + 16 - 16 * j = 16 by omega,
        show 16 * (j + 1) + 16 - 16 * (j + 1) = 16 by omega]

/-- ECB with a function that undoes another gives the input back. -/
theorem ecb_ecb {f g : Block → Block} (hfg : ∀ b, g (f b) = b) (n : Nat) (t : Bytes) (h : t.length = 16 * n) :
    ecb g n (ecb f n t) = t := by
  induction n generalizing t with
  | zero => exact (List.eq_nil_of_length_eq_zero h).symm
  | succ n ih =>
    have h16 : (t.take blockLen).length = 16 := by simp [blockLen]; omega
    have hd : (t.drop blockLen).length = 16 * n := by simp [blockLen]; omega
    conv_rhs => rw [← List.take_append_drop blockLen t]
    rw [ecb, ecb]
    have e1 : ∀ x : Bytes, (bytesOfBlock (f (blockOfBytes (t.take blockLen))) ++ x).take blockLen =
        bytesOfBlock (f (blockOfBytes (t.take blockLen))) := fun x => by simp [blockLen]
    have e2 : ∀ x : Bytes, (bytesOfBlock (f (blockOfBytes (t.take blockLen))) ++ x).drop blockLen = x :=
      fun x => by simp [blockLen]
    rw [e1, e2, ih _ hd, blockOfBytes_bytesOfBlock, hfg, bytesOfBlock_blockOfBytes h16]

theorem ecbE_length {k : Key} {t : Bytes} (h : t.length % 16 = 0) : (ecbE k t).length = t.length := by
  simp [ecbE, blockLen]; omega

theorem ecbD_length {k : Key} {t : Bytes} (h : t.length % 16 = 0) : (ecbD k t).length = t.length := by
  simp [ecbD, blockLen]; omega

/-- ECB decryption undoes ECB encryption under the same key. -/
theorem ecbD_ecbE (k : Key) (t : Bytes) (h : t.length % 16 = 0) : ecbD k (ecbE k t) = t := by
  unfold ecbD
  rw [ecbE_length h]
  exact ecb_ecb (blockD_blockE k) _ _ (by simp [blockLen]; omega)

theorem padLen_bounds (n : Nat) : 1 ≤ padLen n ∧ padLen n ≤ 16 := by
  simp only [padLen, blockLen]; omega

/-- PAD's length, as PAD computes it. -/
theorem length_pad (s : Bytes) : (pad s).length = paddedLen s.length := by
  simp only [pad, padLen, paddedLen, blockLen, List.length_append, List.length_replicate]; omega

theorem paddedLen_mod (n : Nat) : paddedLen n % 16 = 0 := by simp [paddedLen, blockLen]

/-- UNPAD never makes a string longer. -/
theorem unpad_length_le (q : Bytes) : (unpad q).length ≤ q.length := by
  unfold unpad
  simp only
  split_ifs <;> simp

end Sys2Proof.Machine
end

