-- ==== Sys2Proof/Laws/Commands.lean ====
section
/-! SUPPORT. The commands' meanings as equations, and once for all commands what one can do. -/

namespace Sys2Proof.Machine

open Sys2Proof

/-- A command that raises an error fails with its code. -/
theorem fails_of_raise {i : Instr} {s : State} {c : ErrCode} (h : exec i s = .next (s.raise c)) : Fails i s c :=
  ⟨_, h, State.raise_ended _ _, State.raise_onlyStatus _ _⟩

/-- CTRL.VERSION names a version exactly when it is not 3, and V3_3 exactly when it is 0 (10_state.md R24). -/
theorem versionOf_of_ne {x : BitVec 2} (h : x ≠ 3) : ∃ v, versionOf x = some v ∧ (v = .v33 ↔ x = 0) := by
  revert x; decide

theorem versionOf_three : versionOf 3 = none := rfl

/-- The return code's offset, from CTRL.VERSION. -/
theorem rcOff_of_versionOf {x : BitVec 2} {v : Version} (h : versionOf x = some v) : rcOff v = if x = 0 then 0 else 4 := by
  revert x v; decide

/-- The framing checks over the bytes of IN, with no slice of a slice. -/
theorem State.parseFrame_eq (s : State) (v : Version) : s.parseFrame v =
    let len := (be32 (s.memRead (inBase + 12) 4)).toNat
    if s.inLen.toNat < 16 then .error .frameShort
    else if s.memRead inBase 4 ≠ prefixBytes then .error .framePrefix
    else if len = 0 ∨ 2048 < len then .error .frameLength
    else if s.inLen.toNat < 16 + len then .error .frameShort
    else if len < rcOff v + 8 then .error .frameUnderflow
    else .ok {
      hdr := s.memRead inBase 16
      len := len
      pay := s.memRead (inBase + 16) len
      off := rcOff v
      seg := s.memRead (inBase + 16 + rcOff v) (len - 8 - rcOff v) } := by
  unfold State.parseFrame hdrLen maxRespLen trailerLen
  simp only [State.slice_memRead s inBase 16 0 4 (by omega), State.slice_memRead s inBase 16 12 16 (by omega),
    Nat.add_zero, Nat.sub_zero]
  rw [State.slice_memRead _ _ _ _ _ (by omega)]

/-- What the framing checks hand on. -/
theorem State.parseFrame_ok {s : State} {v : Version} {r : Response} (h : s.parseFrame v = .ok r) :
    r.len ≤ 2048 ∧ r.seg.length ≤ 2040 := by
  rw [State.parseFrame_eq] at h
  simp only at h
  split_ifs at h
  cases h
  refine ⟨?_, ?_⟩
  · show (be32 _).toNat ≤ _; omega
  · simp only [State.memRead_length]; omega

/-- The framing checks fail with an error code that is one. -/
theorem State.parseFrame_error {s : State} {v : Version} {c : ErrCode} (h : s.parseFrame v = .error c) : c ≠ .none := by
  rw [State.parseFrame_eq] at h
  simp only at h
  split_ifs at h <;> cases h <;> decide

/-- The text of a segment is no longer than the segment. -/
theorem segmentText_ok {k : Key} {seg t : Bytes} {fb : Bool} (h : segmentText k seg = .ok (t, fb)) :
    t.length ≤ seg.length := by
  unfold segmentText at h
  split at h
  · cases h; rw [slice_length]; omega
  · split_ifs at h with hd
    cases h
    have h1 := unpad_length_le (ecbD k seg)
    have h2 : (ecbD k seg).length = seg.length := ecbD_length hd.2
    omega

theorem segmentText_error {k : Key} {seg : Bytes} {c : ErrCode} (h : segmentText k seg = .error c) : c ≠ .none := by
  unfold segmentText at h
  split at h
  · cases h
  · split_ifs at h; cases h; decide

theorem reqFrame_length (v : Version) (q : Word) (c : Bytes) : (reqFrame v q c).length = hdrOut v + c.length + 8 := by
  cases v <;> simp [reqFrame, requestBody, hdrOut, versionHeader] <;> omega

/-- What a command can do: raise an error; or complete, having written what it is allowed to write and nothing else. -/
theorem exec_cases (i : Instr) (s : State) :
    (∃ c, c ≠ .none ∧ exec i s = .next (s.raise c)) ∨
    (i = .nop ∧ exec i s = .next s.complete) ∨
    (i = .crc32 ∧ exec i s = .next ({ s with crc := crc32 s.input } : State).complete) ∨
    ((i = .encrypt ∨ i = .decrypt) ∧ ∃ bs, bs.length ≤ s.bufSize ∧ exec i s = .next (s.storeOut bs).complete) ∨
    (i = .build ∧ ∃ bs c, bs.length ≤ s.bufSize ∧
      exec i s = .next ({ s.storeOut bs with crc := c, seq := s.seq + 1 } : State).complete) ∨
    (i = .parse ∧ ∃ r t fb, t.length ≤ 2040 ∧ r.len ≤ 2048 ∧ exec i s = .next (s.storeResponse r t fb).complete) := by
  have hp : (pad s.input).length = paddedLen s.inLen.toNat := by rw [length_pad, State.input_length]
  have hm := paddedLen_mod s.inLen.toNat
  have he : (ecbE s.key (pad s.input)).length = paddedLen s.inLen.toNat := by rw [ecbE_length (by omega), hp]
  cases i with
  | nop => exact .inr (.inl ⟨rfl, rfl⟩)
  | crc32 =>
    simp only [exec, execCrc32]
    split_ifs
    · exact .inr (.inr (.inl ⟨trivial, rfl⟩))
    · exact .inl ⟨.inLenRange, by decide, rfl⟩
  | encrypt =>
    simp only [exec, execEncrypt]
    split_ifs with h h2
    · exact .inl ⟨.outOverflow, by decide, rfl⟩
    · exact .inr (.inr (.inr (.inl ⟨.inl trivial, _, by omega, rfl⟩)))
    · exact .inl ⟨.inLenRange, by decide, rfl⟩
  | decrypt =>
    simp only [exec, execDecrypt]
    split_ifs with h h2
    · have h3 := unpad_length_le (ecbD s.key s.input)
      have h4 : (ecbD s.key s.input).length = s.inLen.toNat := by
        rw [ecbD_length (by rw [State.input_length]; exact h2.2), State.input_length]
      exact .inr (.inr (.inr (.inl ⟨.inr trivial, _, by unfold State.inLenFits at h; omega, rfl⟩)))
    · exact .inl ⟨.decryptLen, by decide, rfl⟩
    · exact .inl ⟨.inLenRange, by decide, rfl⟩
  | build =>
    simp only [exec, execBuild]
    rcases hv : versionOf s.version with _ | v
    · exact .inl ⟨.badVersion, by decide, rfl⟩
    · simp only
      split_ifs with h h2
      · exact .inl ⟨.outOverflow, by decide, rfl⟩
      · refine .inr (.inr (.inr (.inr (.inl ⟨trivial, _, _, ?_, rfl⟩))))
        rw [reqFrame_length, he]
        unfold trailerLen at h2; omega
      · exact .inl ⟨.inLenRange, by decide, rfl⟩
  | parse =>
    simp only [exec, execParse]
    rcases hv : versionOf s.version with _ | v
    · exact .inl ⟨.badVersion, by decide, rfl⟩
    · simp only
      split_ifs with h
      · rcases hf : s.parseFrame v with c | r
        · exact .inl ⟨c, State.parseFrame_error hf, rfl⟩
        · simp only
          obtain ⟨h1, h2⟩ := State.parseFrame_ok hf
          rcases ht : segmentText s.key r.seg with c | ⟨t, fb⟩
          · exact .inl ⟨c, segmentText_error ht, rfl⟩
          · exact .inr (.inr (.inr (.inr (.inr
              ⟨trivial, r, t, fb, le_trans (segmentText_ok ht) h2, h1, rfl⟩))))
      · exact .inl ⟨.inLenRange, by decide, rfl⟩

/-- Every command ends: it answers a next state with nothing pending, whose settings are as they were. -/
theorem exec_next (i : Instr) (s : State) :
    ∃ t, exec i s = .next t ∧ t.pend = none ∧ t.done = true ∧ t.inputs = s.inputs ∧ t.param = s.param := by
  rcases exec_cases i s with ⟨c, -, h⟩ | ⟨-, h⟩ | ⟨-, h⟩ | ⟨-, bs, -, h⟩ | ⟨-, bs, c, -, h⟩ | ⟨-, r, t, fb, -, -, h⟩ <;>
  exact ⟨_, h, rfl, rfl, rfl, rfl⟩

/-- So does every command word. -/
theorem engineStep_next (w : Word) (s : State) :
    ∃ t, engineStep w s = .next t ∧ t.pend = none ∧ t.done = true ∧ t.inputs = s.inputs ∧ t.param = s.param := by
  unfold engineStep
  split
  · exact exec_next _ s
  · exact ⟨_, rfl, rfl, rfl, rfl, rfl⟩

end Sys2Proof.Machine
end

