-- ==== Sys2Proof/Laws/PerInstr.lean ====
section
/-! SUPPORT. What holds of every command as syntax, one lemma per command. -/

namespace Sys2Proof.Laws

open Sys2Proof

/-- A command's word has RES = 0 and an OPCODE of the opcode map's six (30_encoding.md R90, R93), and the command is well formed. -/
def EncodingFields.Statement (i : Instr) : Prop :=
  reservedOf (encode i) = 0 ∧ (opcodeOf (encode i)).toNat ≤ 5 ∧ i.wellFormed = true

theorem EncodingFields.nop : EncodingFields.Statement .nop := by unfold EncodingFields.Statement; decide
theorem EncodingFields.crc32 : EncodingFields.Statement .crc32 := by unfold EncodingFields.Statement; decide
theorem EncodingFields.encrypt : EncodingFields.Statement .encrypt := by unfold EncodingFields.Statement; decide
theorem EncodingFields.decrypt : EncodingFields.Statement .decrypt := by unfold EncodingFields.Statement; decide
theorem EncodingFields.build : EncodingFields.Statement .build := by unfold EncodingFields.Statement; decide
theorem EncodingFields.parse : EncodingFields.Statement .parse := by unfold EncodingFields.Statement; decide

end Sys2Proof.Laws
end

