-- ==== Sys2Proof/Laws/Run.lean ====
section
/-! SUPPORT. Runs of several steps, and the steps of the host's turn, as equations. -/

namespace Sys2Proof.Machine

open Sys2Proof

/-- A run's first step, where it answers a next state, of any machine. -/
theorem core_run_next (M : Host.Core) {k : Nat} {s t : M.State} (h : M.step s = .next t) : M.run (k + 1) s = M.run k t := by
  rw [Host.Core.run, h]

/-- A run is one run after another, of any machine. -/
theorem core_run_add (M : Host.Core) {k : Nat} (l : Nat) {s t : M.State} (h : M.run k s = .next t) :
    M.run (k + l) s = M.run l t := by
  induction k generalizing s with
  | zero => cases h; rw [Nat.zero_add]
  | succ k ih =>
    rw [Host.Core.run] at h
    rw [show k + 1 + l = (k + l) + 1 by omega, Host.Core.run]
    cases hs : M.step s with
    | next s' => rw [hs] at h; exact ih h
    | fault r => rw [hs] at h; cases h
    | refused r => rw [hs] at h; cases h

/-- A run's first step, where it answers a next state. -/
theorem run_next {k : Nat} {s t : State} (h : step s = .next t) :
    Host.Core.run Sys2Proof.core (k + 1) s = Host.Core.run Sys2Proof.core k t := core_run_next Sys2Proof.core h

/-- A run is one run after another. -/
theorem run_add {k : Nat} (l : Nat) {s t : State} (h : Host.Core.run Sys2Proof.core k s = .next t) :
    Host.Core.run Sys2Proof.core (k + l) s = Host.Core.run Sys2Proof.core l t := core_run_add Sys2Proof.core l h

/-- An idle block with a write at the head of its inputs stores it. -/
theorem step_write_idle {s : State} {w : Width} {off : Nat} {data : Word} {rest : List Input} (hp : s.pend = none)
    (hi : s.inputs = .access (.write w off data) :: rest) (ho : off < 0x3000) :
    step s = .next (({ s with inputs := rest } : State).storeData w off data) := by
  rw [← State.hostAccess_write_idle ({ s with inputs := rest } : State) w off data hp ho]
  simp only [step, advance, hp, State.outsideTurn, hi, State.serve]

/-- With nothing pending, the oldest input reaches the block. -/
theorem step_idle {s : State} {i : Input} {rest : List Input} (hp : s.pend = none) (hi : s.inputs = i :: rest) :
    step s = ({ s with inputs := rest } : State).serve i := by
  simp only [step, advance, hp, State.outsideTurn, hi]

/-- While a command waits for its turn, the oldest input reaches the block, and the command comes one turn nearer. -/
theorem step_waiting {s : State} {w : Word} {n : Nat} {i : Input} {rest : List Input} (hp : s.pend = some w)
    (hd : s.delay = n + 1) (hi : s.inputs = i :: rest) :
    step s = ({ s with delay := n, inputs := rest } : State).serve i := by
  simp only [step, advance, hp, hd, State.outsideTurn, hi]

/-- An input inside the window is served: it is gone, but for a POLL that waits at the head again. -/
theorem State.serve_next (s : State) {i : Input} (h : i.wellFormed = true) :
    ∃ t, s.serve i = .next t ∧ (t.inputs = s.inputs ∨ t.inputs = i :: s.inputs) := by
  cases i with
  | access a =>
    cases a with
    | read w off =>
      have ho : off < windowSize := by simpa [Input.wellFormed, Access.wellFormed] using h
      exact ⟨s.hostRead w off, if_pos ho, .inl rfl⟩
    | write w off data =>
      have ho : off < windowSize := by
        simp only [Input.wellFormed, Access.wellFormed, Bool.and_eq_true, decide_eq_true_eq] at h
        exact h.1
      exact ⟨s.hostWrite w off data, if_pos ho, .inl (State.hostWrite_inputs s w off data).1⟩
  | poll off mask value =>
    have ho : off < windowSize := by simpa [Input.wellFormed] using h
    show ∃ t, s.pollOnce off mask value = .next t ∧ _
    unfold State.pollOnce
    rw [if_pos ho]
    split_ifs
    · exact ⟨_, rfl, .inl rfl⟩
    · exact ⟨_, rfl, .inr rfl⟩
  | reset => exact ⟨_, rfl, .inl rfl⟩

end Sys2Proof.Machine
end

