-- ==== Sys2Proof/Tests/Slice0.lean ====
section
/-! SUPPORT. The model's own tests, from the vectors of 95_test_vectors.md, and one witness for the hypotheses of each statement
that has any. -/

open Sys2Proof Sys2Proof.Machine

namespace Sys2Proof.Tests

/-! ## Helpers -/

/-- The state after reset with `bs` in IN and IN_LEN its length. -/
def withIn (bs : Bytes) : State :=
  { State.reset with inLen := BitVec.ofNat 32 bs.length, mem := Memory.writeBytes [] inBase bs }

/-- The state after reset with only IN_LEN set. -/
def withLen (n : Nat) : State := { State.reset with inLen := BitVec.ofNat 32 n }

/-- The state after a command, where it answers one. -/
def after (i : Instr) (s : State) : Option State :=
  match exec i s with
  | .next t => some t
  | _ => none

/-- The state after `n` steps, where they answer one. -/
def afterSteps (n : Nat) (s : State) : Option State :=
  match Host.Core.run Sys2Proof.core n s with
  | .next t => some t
  | _ => none

/-- STATUS after a command. -/
def statusAfter (i : Instr) (s : State) : Option Word := (after i s).map State.statusWord

/-- `t` with its result copied from OUT to IN, as the programs' COPYOUT does, and IN_LEN the result's length. -/
def copyBack (t : State) : State :=
  { t with inLen := t.outLen, mem := t.mem.writeBytes inBase (t.memRead outBase t.outLen.toNat) }

/-- The frame of V-SRC-10. -/
def fallbackFrame : Bytes :=
  [0x00, 0x00, 0x55, 0xAA, 0x00, 0x00, 0x00, 0x01, 0x00, 0x00, 0x00, 0x0A, 0x00, 0x00, 0x00, 0x1B, 0x78, 0x78, 0x7B, 0x22,
   0x64, 0x70, 0x73, 0x22, 0x3A, 0x7B, 0x22, 0x38, 0x22, 0x3A, 0x31, 0x30, 0x30, 0x7D, 0x7D, 0x3F, 0x10, 0xEA, 0xEB, 0x00,
   0x00, 0xAA, 0x55]

/-- A response header with length field `l`. -/
def header (l : Word) : Bytes := [0x00, 0x00, 0x55, 0xAA, 0x00, 0x00, 0x00, 0x01, 0x00, 0x00, 0x00, 0x0A] ++ toBE32 l

/-- A response with a 16-byte segment that holds no 0x7B: under V3_3 PARSE decrypts it. -/
def cipherFrame : Bytes := header 24 ++ zeros 16 ++ [0x11, 0x22, 0x33, 0x44, 0x00, 0x00, 0xAA, 0x55]

/-! ## Well-formedness -/

/-- The check refuses a read just above the window (20_memory.md R61). -/
theorem test_read_above_the_window_is_ill_formed : (Access.read .w32 0x3000).wellFormed = false := by decide

/-- The check refuses a write just above the window. -/
theorem test_write_above_the_window_is_ill_formed : (Access.write .w8 0x3000 0).wellFormed = false := by decide

/-- The check refuses data wider than the access (30_encoding.md R104). -/
theorem test_wide_data_is_ill_formed : (Access.write .w8 0x1000 0x100).wellFormed = false := by decide

/-- The check refuses a POLL above the window. -/
theorem test_poll_above_the_window_is_ill_formed : (Input.poll 0x3000 0 0).wellFormed = false := by decide

/-- The check takes a legal write and every command. -/
theorem test_well_formed_terms_pass :
    (Access.write .w8 0x2FFF 0xFF).wellFormed = true ∧ Instr.parse.wellFormed = true ∧ Input.reset.wellFormed = true := by
  decide

/-! ## Decoding: words written out from RES[31:4] and OPCODE[3:0] (30_encoding.md R90, R93) -/

theorem test_decode_nop : decode ((0b0000000000000000000000000000 : BitVec 28) ++ (0b0000 : BitVec 4)) = .ok .nop := by decide
theorem test_decode_crc32 : decode ((0b0000000000000000000000000000 : BitVec 28) ++ (0b0001 : BitVec 4)) = .ok .crc32 := by
  decide
theorem test_decode_encrypt : decode ((0b0000000000000000000000000000 : BitVec 28) ++ (0b0010 : BitVec 4)) = .ok .encrypt := by
  decide
theorem test_decode_decrypt : decode ((0b0000000000000000000000000000 : BitVec 28) ++ (0b0011 : BitVec 4)) = .ok .decrypt := by
  decide
theorem test_decode_build : decode ((0b0000000000000000000000000000 : BitVec 28) ++ (0b0100 : BitVec 4)) = .ok .build := by
  decide
theorem test_decode_parse : decode ((0b0000000000000000000000000000 : BitVec 28) ++ (0b0101 : BitVec 4)) = .ok .parse := by
  decide

/-- Words that are no command, of V-LC-3, each refused by name. -/
theorem test_decode_refuses_by_name :
    decode 0x00000006 = .error (.reservedOpcode 6) ∧ decode 0x0000000F = .error (.reservedOpcode 15) ∧
    decode 0x00000010 = .error .reservedBits ∧ decode 0x00000011 = .error .reservedBits ∧
    decode 0x80000001 = .error .reservedBits := by decide

/-- The opcode table's numbering reaches the decoder; a byte string of another length is no command. -/
theorem test_decode_table_word :
    decodeTableWord 32 5 = some .parse ∧ decodeTableWord 8 2 = some .encrypt ∧ decodeTableWord 32 0x11 = none ∧
    decodeTableWord 40 1 = none ∧ decodeBytes [0x01, 0x00, 0x00] = .error .wrongLength := by decide

/-- A word placed after reset is run by the very next step, which is its meaning. -/
theorem test_placed_word_runs : step (State.reset.withFetchWord 32 1) = exec .crc32 (State.reset.withFetchWord 32 1) := rfl

/-! ## The commands -/

/-- V-LC-2: NOP, from STATUS = 0x302, shows BUSY alone after the CMD write and DONE alone after the step. -/
theorem test_nop_handshake :
    (State.accept { State.reset with err := .outOverflow, done := true } 0).statusWord = 0x00000001 ∧
    statusAfter .nop (State.issue { State.reset with err := .outOverflow, done := true } 0 0) = some 0x00000002 := by
  decide +kernel

/-- V-LC-3: an illegal word completes with ILLEGAL_CMD and does not run CRC32. -/
theorem test_illegal_word :
    (afterSteps 1 (State.reset.withFetchWord 32 0x11)).map (fun t => (t.statusWord, t.crc)) = some (0x00000102, 0) := by
  decide +kernel

/-- V-CRC-1, 2, 3, 4 and 10. -/
theorem test_crc32_of_short_strings :
    crc32 [] = 0x00000000 ∧ crc32 [0x61] = 0xE8B7BE43 ∧ crc32 [0x00] = 0xD202EF8D ∧ crc32 [0xFF] = 0xFF000000 ∧
    crc32 [0x00, 0x00, 0x55, 0xAA] = 0xD08B3CFB := by decide +kernel

/-- V-CRC-5 as a command: CRC, STATUS and an unwritten OUT. -/
theorem test_crc32_command :
    (after .crc32 (withIn [0x31, 0x32, 0x33, 0x34, 0x35, 0x36, 0x37, 0x38, 0x39])).map
      (fun t => (t.crc, t.statusWord, t.outLen, t.mem.read outBase)) = some (0xCBF43926, 0x00000002, 0, none) := by
  decide +kernel

/-- V-CIP-2 and V-CIP-4 (PAD), V-CIP-11, 13, 14 and 15 (UNPAD). -/
theorem test_pad_and_unpad :
    pad [0x41] = 0x41 :: List.replicate 15 0x0F ∧ pad (zeros 16) = zeros 16 ++ List.replicate 16 0x10 ∧
    unpad (zeros 15 ++ [0x01]) = zeros 15 ∧ unpad (zeros 15 ++ [0x10]) = [] ∧
    unpad (zeros 15 ++ [0x00]) = zeros 16 ∧ unpad (zeros 15 ++ [0x11]) = zeros 15 ++ [0x11] := by decide +kernel

/-- V-CIP-7 and V-CIP-8: 4080 bytes fit, 4096 do not; V-CIP-9: the range check comes first. -/
theorem test_encrypt_limits :
    (after .encrypt (withLen 15)).map (fun t => (t.outLen, t.statusWord)) = some (16, 0x00000002) ∧
    statusAfter .encrypt (withLen 4096) = some 0x00000302 ∧ statusAfter .encrypt (withLen 4097) = some 0x00000202 := by
  decide +kernel

/-- V-SRC-4: DECRYPT of a length of 0 or 17 is DECRYPT_LEN, and it never takes the fallback. -/
theorem test_decrypt_lengths :
    statusAfter .decrypt (withLen 0) = some 0x00000502 ∧ statusAfter .decrypt (withLen 17) = some 0x00000502 ∧
    statusAfter .decrypt (withIn (List.replicate 16 0x7B)) = some 0x00000002 := by decide +kernel

/-- V-FRM-1 with its ciphertext given: the frame and its CRC. -/
theorem test_build_frame :
    reqFrame .v33 1 [0xD1, 0xE1, 0x06, 0x9E, 0x97, 0xAE, 0xE3, 0xBB, 0x79, 0xB8, 0xE8, 0xD8, 0x4C, 0x8E, 0x3E, 0xF3, 0x60, 0x5F,
        0xB0, 0x86, 0xF3, 0x7D, 0x42, 0x7E, 0xCE, 0xCB, 0xE9, 0x94, 0x4B, 0xFE, 0xEE, 0xF2] =
      [0x00, 0x00, 0x55, 0xAA, 0x00, 0x00, 0x00, 0x01, 0x00, 0x00, 0x00, 0x0A, 0x00, 0x00, 0x00, 0x28, 0xD1, 0xE1, 0x06, 0x9E,
        0x97, 0xAE, 0xE3, 0xBB, 0x79, 0xB8, 0xE8, 0xD8, 0x4C, 0x8E, 0x3E, 0xF3, 0x60, 0x5F, 0xB0, 0x86, 0xF3, 0x7D, 0x42, 0x7E,
        0xCE, 0xCB, 0xE9, 0x94, 0x4B, 0xFE, 0xEE, 0xF2, 0xD0, 0x4E, 0x08, 0x06, 0x00, 0x00, 0xAA, 0x55] := by decide +kernel

/-- V-FRM-4's OUT_LEN and SEQ, the version header's 3.4 of V-FRM-2, and V-FRM-10, 12 and 14: a failed BUILD keeps SEQ. -/
theorem test_build_command :
    (after .build (withLen 0)).map (fun t => (t.outLen, t.seq, t.mem.read (outBase + 11))) = some (40, 2, some 0x0A) ∧
    (after .build { withLen 0 with version := 1 }).map (fun t => (t.outLen, t.mem.read (outBase + 14))) = some (56, some 0x34) ∧
    statusAfter .build { State.reset with version := 3 } = some 0x00000402 ∧
    (after .build (withLen 4064)).map (fun t => (t.statusWord, t.seq)) = some (0x00000302, 1) ∧
    statusAfter .build { withLen 4048 with version := 1 } = some 0x00000302 := by decide +kernel

/-- V-SRC-10 and V-FRM-25: the fallback, without and with a return code. -/
theorem test_parse_fallback :
    (after .parse (withIn fallbackFrame)).map (fun t => (t.memRead outBase t.outLen.toNat, t.retcode, t.rxSeq, t.rxCmd)) =
      some ([0x7B, 0x22, 0x64, 0x70, 0x73, 0x22, 0x3A, 0x7B, 0x22, 0x38, 0x22, 0x3A, 0x31, 0x30, 0x30, 0x7D, 0x7D], 0, 1, 0x0A) ∧
    (after .parse (withIn fallbackFrame)).map (fun t => (t.rxCrc, t.frameLen, t.statusWord)) =
      some (0x3F10EAEB, 43, 0x00000006) ∧
    (after .parse { withIn fallbackFrame with version := 1 }).map
        (fun t => (t.memRead outBase t.outLen.toNat, t.retcode)) =
      some ([0x7B, 0x22, 0x38, 0x22, 0x3A, 0x31, 0x30, 0x30, 0x7D, 0x7D], 0x78787B22) := by decide +kernel

/-- V-FRM-30 to V-FRM-45: each error code, in the order of the checks. -/
theorem test_parse_errors :
    statusAfter .parse (withIn ([0x00, 0x00, 0x55, 0xAB] ++ fallbackFrame.drop 4)) = some 0x00000702 ∧
    statusAfter .parse (withIn (header 0)) = some 0x00000802 ∧ statusAfter .parse (withIn (header 2049)) = some 0x00000802 ∧
    statusAfter .parse (withIn (header 2048)) = some 0x00000602 ∧
    statusAfter .parse { withIn fallbackFrame with inLen := 42 } = some 0x00000602 ∧
    statusAfter .parse (withLen 15) = some 0x00000602 ∧ statusAfter .parse (withLen 4097) = some 0x00000202 ∧
    statusAfter .parse { withLen 4097 with version := 3 } = some 0x00000402 ∧
    statusAfter .parse { withIn (header 11 ++ zeros 11) with version := 1 } = some 0x00000902 ∧
    statusAfter .parse { withIn (header 12 ++ zeros 12) with version := 1 } = some 0x00000502 ∧
    statusAfter .parse (withIn (header 8 ++ zeros 8)) = some 0x00000502 ∧
    statusAfter .parse (withIn (header 0x1C ++ zeros 28)) = some 0x00000502 ∧
    statusAfter .parse (withIn (header 7 ++ zeros 7)) = some 0x00000902 := by decide +kernel

/-! ## The host's accesses -/

/-- A state with a command pending and some turns left. -/
def busyState : State := State.issue State.reset 0x00000001 3

/-- V-LC-4, V-LC-5 and V-LC-10: STATUS and CTRL writes. -/
theorem test_status_and_ctrl_writes :
    (State.writeStatus { State.reset with err := .framePrefix, done := true } 0x0000000A).statusWord = 0x00000700 ∧
    (State.writeStatus { State.reset with err := .framePrefix, done := true } 0xFFFFFFF5).statusWord = 0x00000702 ∧
    (State.writeCtrl State.reset 0xFFFFFFFF).readData .w32 0x000 = 0x00000103 := by decide +kernel

/-- V-LC-6: each busy write is lost and sets WERR; a busy STATUS write is obeyed. -/
theorem test_busy_writes :
    [(Width.w32, 0x00C), (.w32, 0x014), (.w8, 0x1000), (.w32, 0x040), (.w32, 0x004), (.w32, 0x2000), (.w32, 0x100)].all
      (fun a => busyState.hostWrite a.1 a.2 0xFF == { busyState with werr := true }) = true ∧
    (State.hostWrite { busyState with werr := true } .w32 0x008 0x8).werr = false := by decide +kernel

/-- V-LC-11 and V-CRC-12: byte lanes, low lane at the low offset. -/
theorem test_byte_lanes :
    (State.hostWrite State.reset .w32 0x1000 0x34333231).readData .w8 0x1003 = 0x34 ∧
    (State.hostWrite (State.hostWrite State.reset .w16 0x1000 0x6261) .w8 0x1002 0x63).memRead inBase 3 = [0x61, 0x62, 0x63] := by
  decide +kernel

/-- V-LC-1 and V-LC-7: what idle reads give after reset, and that IN's bytes are unwritten. -/
theorem test_reset_reads :
    State.reset.readData .w32 0x014 = 1 ∧ State.reset.readData .w32 0x030 = 0x1000 ∧ State.reset.readData .w32 0x040 = 0 ∧
    State.reset.readData .w32 0x034 = 0 ∧ State.reset.mem.read inBase = none := by decide +kernel

/-! ## Witnesses: for each statement with hypotheses, states and operands that meet them, at the boundaries of each clause -/

/-- Any bit of RES, low or high, with any OPCODE; and OPCODE 6 and 15 with RES = 0. -/
theorem witness_AnIllegalWordCompletesWithIllegalCmd :
    (∀ w, (State.issue State.reset w 0).pend = some w ∧ (State.issue State.reset w 0).delay = 0) ∧
    (0x00000010 : Word).extractLsb' 4 28 ≠ 0 ∧ (0x80000001 : Word).extractLsb' 4 28 ≠ 0 ∧
    6 ≤ ((0x00000006 : Word).extractLsb' 0 4).toNat ∧ 6 ≤ ((0x0000000F : Word).extractLsb' 0 4).toNat :=
  ⟨fun _ => ⟨rfl, rfl⟩, by decide, by decide, by decide, by decide⟩

theorem witness_StepRunsThePendingCommand :
    (State.issue State.reset 5 0).pend = some 5 ∧ (State.issue State.reset 5 0).delay = 0 ∧ decode 5 = .ok .parse := by decide

theorem witness_TheOutsideMovesUntilTheDelayRunsOut :
    busyState.pend = some 1 ∧ busyState.delay = 2 + 1 ∧ State.reset.pend = none := by decide

/-- IN_LEN from 0 to BUF_SIZE; and 4097. -/
theorem witness_Crc32SetsTheChecksumOfItsInput :
    (withLen 0).inLen.toNat ≤ (withLen 0).bufSize ∧ (withLen 4096).inLen.toNat ≤ (withLen 4096).bufSize ∧
    (withLen 4097).bufSize < (withLen 4097).inLen.toNat := by decide

/-- Final bytes at both ends of the range that strips, and just outside it, after 15 bytes and more. -/
theorem witness_UnpadLooksAtTheFinalByteOnly :
    15 ≤ (zeros 15).length ∧ 15 ≤ (zeros 31).length ∧ (1 ≤ (0x01 : Byte).toNat ∧ (0x01 : Byte).toNat ≤ 16) ∧
    (1 ≤ (0x10 : Byte).toNat ∧ (0x10 : Byte).toNat ≤ 16) ∧ ¬(1 ≤ (0x00 : Byte).toNat ∧ (0x00 : Byte).toNat ≤ 16) ∧
    ¬(1 ≤ (0x11 : Byte).toNat ∧ (0x11 : Byte).toNat ≤ 16) := by decide

/-- Each clause: inputs up to the longest that fits, 4095 bytes; 4097 bytes; 4096 bytes. -/
theorem witness_EncryptWritesThePaddedInputBlockByBlock :
    (∀ n ∈ [0, 16, 4095], (withLen n).inLen.toNat ≤ (withLen n).bufSize ∧
      ((withLen n).inLen.toNat / 16 + 1) * 16 ≤ (withLen n).bufSize) ∧
    (withLen 4097).bufSize < (withLen 4097).inLen.toNat ∧
    (withLen 4096).inLen.toNat ≤ (withLen 4096).bufSize ∧
    (withLen 4096).bufSize < ((withLen 4096).inLen.toNat / 16 + 1) * 16 := by decide +kernel

/-- Each clause: 16 and 4096 bytes; 4097 bytes; 0, 1 and 4095 bytes. -/
theorem witness_DecryptWritesTheUnpaddedBlocks :
    (∀ n ∈ [16, 4096], (withLen n).inLen.toNat ≤ (withLen n).bufSize ∧ (withLen n).inLen.toNat ≠ 0 ∧
      (withLen n).inLen.toNat % 16 = 0) ∧
    (withLen 4097).bufSize < (withLen 4097).inLen.toNat ∧
    ∀ n ∈ [0, 1, 4095], (withLen n).inLen.toNat ≤ (withLen n).bufSize ∧
      ((withLen n).inLen.toNat = 0 ∨ (withLen n).inLen.toNat % 16 ≠ 0) := by decide +kernel

theorem witness_ErrorCodesAreNumberedAsListed :
    exec .crc32 (withLen 4097) = .next ((withLen 4097).raise .inLenRange) ∧
    Ended ((withLen 4097).raise .inLenRange) .inLenRange := ⟨rfl, ⟨rfl, rfl, rfl⟩⟩

/-- What is copied back to IN reads as the result in OUT. -/
theorem copyBack_reads {t : State} {f : Bytes} (h : t.outIs f) (i : Nat) (hi : i < t.outLen.toNat) :
    (copyBack t).mem.read (inBase + i) = t.mem.read (outBase + i) := by
  have hr : i < (t.memRead outBase t.outLen.toNat).length := by rw [State.memRead_length]; exact hi
  refine (Memory.read_writeBytes_inside _ _ _ i hr).trans ?_
  have hf : t.mem.read (outBase + i) = some (f[i]'(by rw [← h.1]; exact hi)) := h.2 i (by rw [← h.1]; exact hi)
  rw [State.memRead_getElem, State.readByte_of_read hf, hf]

theorem withLen_inLen {n : Nat} (h : n ≤ 4096) : (withLen n).inLen.toNat = n ∧ (withLen n).bufSize = 4096 := by
  refine ⟨?_, rfl⟩
  show (BitVec.ofNat 32 n).toNat = n
  rw [BitVec.toNat_ofNat]; omega

/-- What ENCRYPT leaves, for an input that fits. -/
theorem encrypt_outcome (s : State) (hf : s.inLenFits) (hb : ¬ s.bufSize < paddedLen s.inLen.toNat) :
    ∃ t f, exec .encrypt s = .next t ∧ t.outIs f ∧ t.param = s.param ∧ t.key = s.key := by
  have hl : (ecbE s.key (pad s.input)).length < 2 ^ 32 := by
    have hp : (pad s.input).length = paddedLen s.inLen.toNat := by rw [length_pad, State.input_length]
    have h1 := s.bufSize_lt
    rw [ecbE_length (by rw [hp]; exact paddedLen_mod _), hp]
    omega
  refine ⟨(s.storeOut (ecbE s.key (pad s.input))).complete, _, ?_, (State.storeOut_spec s _ hl).1, rfl, rfl⟩
  simp only [exec, execEncrypt]
  rw [if_neg (not_not.mpr hf), if_neg hb]

/-- A round trip of the empty string and of 4095 bytes that nothing has written. -/
theorem witness_DecryptRecoversWhatEncryptWrote :
    ∀ n ∈ [0, 4095], ∃ s t u : State, s.inLen.toNat = n ∧ s.inLen.toNat ≤ s.bufSize ∧
      (s.inLen.toNat / 16 + 1) * 16 ≤ s.bufSize ∧ exec .encrypt s = .next t ∧ u.key = s.key ∧ u.bufSize = s.bufSize ∧
      u.inLen = t.outLen ∧ ∀ i, i < t.outLen.toNat → u.mem.read (inBase + i) = t.mem.read (outBase + i) := by
  intro n hn
  have hn' : n ≤ 4095 := by simp only [List.mem_cons, List.not_mem_nil, or_false] at hn; omega
  obtain ⟨e, b⟩ := withLen_inLen (n := n) (by omega)
  obtain ⟨t, f, ht, hf, hp, hk⟩ := encrypt_outcome (withLen n) (by unfold State.inLenFits; omega)
    (by rw [e, b]; unfold paddedLen blockLen; omega)
  exact ⟨withLen n, t, copyBack t, e, by omega, by omega, ht, hk, congrArg BitVec.toNat hp, rfl,
    fun i hi => copyBack_reads hf i hi⟩

theorem witness_BuildWritesTheV33RequestFrame :
    ∀ n ∈ [0, 4063], (withLen n).version = 0 ∧ (withLen n).inLen.toNat ≤ (withLen n).bufSize ∧
      24 + ((withLen n).inLen.toNat / 16 + 1) * 16 ≤ (withLen n).bufSize := by decide +kernel

theorem witness_BuildWritesTheV34AndV35RequestFrame :
    ∀ n ∈ [0, 4047], ∀ v ∈ [((1 : BitVec 2), (0x34 : Byte)), (2, 0x35)],
      let s : State := { withLen n with version := v.1 }
      ((s.version = 1 ∧ v.2 = 0x34) ∨ (s.version = 2 ∧ v.2 = 0x35)) ∧ s.inLen.toNat ≤ s.bufSize ∧
      40 + (s.inLen.toNat / 16 + 1) * 16 ≤ s.bufSize := by decide +kernel

/-- Each clause: no version; 4097 bytes; the shortest input that overflows OUT, without and with a version header. -/
theorem witness_BuildErrorsComeInOrder :
    ({ State.reset with version := 3 } : State).version = 3 ∧
    ((withLen 4097).version ≠ 3 ∧ (withLen 4097).bufSize < (withLen 4097).inLen.toNat) ∧
    ((withLen 4064).version = 0 ∧ (withLen 4064).inLen.toNat ≤ (withLen 4064).bufSize ∧
      (withLen 4064).bufSize < 24 + ((withLen 4064).inLen.toNat / 16 + 1) * 16) ∧
    ∀ v ∈ [(1 : BitVec 2), 2],
      let s : State := { withLen 4048 with version := v }
      (s.version = 1 ∨ s.version = 2) ∧ s.inLen.toNat ≤ s.bufSize ∧ s.bufSize < 40 + (s.inLen.toNat / 16 + 1) * 16 := by
  decide

/-- The frame of V-SRC-10, under V3_3 (the brace at index 2) and under V3_4 (at index 5). -/
theorem witness_ParseTakesThePlaintextFallback :
    ∀ c ∈ [((0 : BitVec 2), 0, 2), (1, 4, 5), (2, 4, 5)],
      let s : State := { withIn fallbackFrame with version := c.1 }
      let frame := s.memRead inBase (16 + 27)
      let seg := slice frame (16 + c.2.1) (8 + 27)
      s.version ≠ 3 ∧ c.2.1 = (if s.version = 0 then 0 else 4) ∧ s.inLen.toNat ≤ s.bufSize ∧ 16 + 27 ≤ s.inLen.toNat ∧
      slice frame 0 4 = [0x00, 0x00, 0x55, 0xAA] ∧ (be32 (slice frame 12 16)).toNat = 27 ∧ 27 ≤ 2048 ∧ c.2.1 + 8 ≤ 27 ∧
      seg[c.2.2]? = some 0x7B ∧ ∀ k, k < c.2.2 → seg[k]? ≠ some 0x7B := by decide +kernel

/-- A 16-byte segment under V3_3, and under V3_4 after a 4-byte return code. -/
theorem witness_ParseDecryptsASegmentWithoutABrace :
    ∀ c ∈ [((0 : BitVec 2), 0, 24), (1, 4, 28)],
      let s : State := { withIn (header (BitVec.ofNat 32 c.2.2) ++ zeros c.2.2) with version := c.1 }
      let frame := s.memRead inBase (16 + c.2.2)
      let seg := slice frame (16 + c.2.1) (8 + c.2.2)
      s.version ≠ 3 ∧ c.2.1 = (if s.version = 0 then 0 else 4) ∧ s.inLen.toNat ≤ s.bufSize ∧ 16 + c.2.2 ≤ s.inLen.toNat ∧
      slice frame 0 4 = [0x00, 0x00, 0x55, 0xAA] ∧ (be32 (slice frame 12 16)).toNat = c.2.2 ∧ c.2.2 ≤ 2048 ∧
      c.2.1 + 8 ≤ c.2.2 ∧ (0x7B : Byte) ∉ seg ∧ seg.length ≠ 0 ∧ seg.length % 16 = 0 := by decide +kernel

/-- Its hypotheses only name values; a state for each arm of the first failing check, at its boundary, is in `test_parse_errors`;
here is one for the arm where none fails, and the shortest V3_3 frame, whose segment is empty. -/
theorem witness_ParseReportsTheFirstFailingCheck :
    statusAfter .parse (withIn cipherFrame) = some 0x00000002 ∧ statusAfter .parse (withIn (header 8 ++ zeros 8)) = some 0x00000502 := by
  decide +kernel

/-- A response under V3_3, and one under V3_4, that PARSE completes without an error. -/
theorem witness_V34AndV35ResponsesAreParsedAlike :
    (after .parse (withIn fallbackFrame)).map State.err = some .none ∧
    (after .parse { withIn fallbackFrame with version := 1 }).map State.err = some .none := by decide +kernel

/-- The frame of V-SRC-10, and the same with two bytes after it (V-FRM-27). -/
theorem witness_ParseIgnoresBytesAfterTheFrame :
    let s := withIn fallbackFrame
    let u := withIn (fallbackFrame ++ [0x99, 0x99])
    27 = (be32 (s.memRead (inBase + 12) 4)).toNat ∧ 16 + 27 ≤ s.inLen.toNat ∧ 16 + 27 ≤ u.inLen.toNat ∧
    s.inLen.toNat ≤ s.bufSize ∧ u.inLen.toNat ≤ s.bufSize ∧
    (∀ i, i < 16 + 27 → u.mem.read (inBase + i) = s.mem.read (inBase + i)) ∧ u = { s with inLen := u.inLen, mem := u.mem } := by
  decide +kernel

/-- The frame of V-SRC-10 with another trailer (V-FRM-26); and the shortest V3_3 frame with another trailer. -/
theorem witness_ParseDoesNotVerifyTheTrailer :
    (let s := withIn fallbackFrame
     let u := withIn (fallbackFrame.take 35 ++ [0xDE, 0xAD, 0xBE, 0xEF, 0x11, 0x22, 0x33, 0x44])
     27 = (be32 (s.memRead (inBase + 12) 4)).toNat ∧ 8 ≤ 27 ∧
     (∀ i, i < 8 + 27 → u.mem.read (inBase + i) = s.mem.read (inBase + i)) ∧ u = { s with mem := u.mem }) ∧
    (let s := withIn (header 8 ++ zeros 8)
     let u := withIn (header 8 ++ List.replicate 8 0x01)
     8 = (be32 (s.memRead (inBase + 12) 4)).toNat ∧
     (∀ i, i < 8 + 8 → u.mem.read (inBase + i) = s.mem.read (inBase + i)) ∧ u = { s with mem := u.mem }) := by
  decide +kernel

/-- What BUILD leaves, for a version and an input that fit. -/
theorem build_outcome (s : State) (v : Version) (hv : versionOf s.version = some v) (hf : s.inLenFits)
    (hb : ¬ s.bufSize < hdrOut v + paddedLen s.inLen.toNat + trailerLen) :
    ∃ t f, exec .build s = .next t ∧ t.outIs f ∧ t.param = s.param ∧ t.key = s.key := by
  have hl : (reqFrame v s.seq (ecbE s.key (pad s.input))).length < 2 ^ 32 := by
    have hp : (pad s.input).length = paddedLen s.inLen.toNat := by rw [length_pad, State.input_length]
    have h1 := s.bufSize_lt
    rw [reqFrame_length, ecbE_length (by rw [hp]; exact paddedLen_mod _), hp]
    unfold trailerLen at hb; omega
  generalize hr : reqFrame v s.seq (ecbE s.key (pad s.input)) = f at hl
  obtain ⟨c, e⟩ : ∃ c, exec .build s = .next ({ s.storeOut f with crc := c, seq := s.seq + 1 } : State).complete := by
    simp only [exec, execBuild, hv, hr]
    rw [if_neg (not_not.mpr hf), if_neg hb]
    exact ⟨_, rfl⟩
  exact ⟨({ s.storeOut f with crc := c, seq := s.seq + 1 } : State).complete, f, e, (State.storeOut_spec s f hl).1, rfl, rfl⟩

/-- A V3_3 request of the empty string, and one of the longest input that PARSE takes back. -/
theorem witness_ParseRecoversAV33FrameThatBuildWrote :
    ∀ n ∈ [0, 2031], ∃ s t u : State, s.inLen.toNat = n ∧ s.version = 0 ∧ s.inLen.toNat ≤ s.bufSize ∧
      24 + (s.inLen.toNat / 16 + 1) * 16 ≤ s.bufSize ∧ 24 + (s.inLen.toNat / 16 + 1) * 16 ≤ 2064 ∧
      exec .build s = .next t ∧ u.version = 0 ∧ u.key = s.key ∧ u.bufSize = s.bufSize ∧ u.inLen = t.outLen ∧
      ∀ i, i < t.outLen.toNat → u.mem.read (inBase + i) = t.mem.read (outBase + i) := by
  intro n hn
  have hl : (withLen n).inLen.toNat = n ∧ n ≤ 2031 := by
    simp only [List.mem_cons, List.not_mem_nil, or_false] at hn
    rcases hn with rfl | rfl <;> decide
  have hb : (withLen n).bufSize = 4096 := rfl
  obtain ⟨t, f, ht, hf, hp, hk⟩ := build_outcome (withLen n) .v33 rfl (by unfold State.inLenFits; omega)
    (by rw [hl.1, hb]; unfold paddedLen blockLen trailerLen; show ¬ _ < 16 + _ + 8; omega)
  exact ⟨withLen n, t, { copyBack t with version := 0 }, hl.1, rfl, by omega, by omega, by omega, ht, rfl, hk,
    congrArg BitVec.toNat hp, rfl, fun i hi => copyBack_reads hf i hi⟩

/-- A V3_4 and a V3_5 request of the empty string, parsed under V3_3. -/
theorem witness_ParseRejectsAV34OrV35Request :
    ∀ v ∈ [(1 : BitVec 2), 2], ∃ s t u : State, s.version = v ∧ s.inLen.toNat ≤ s.bufSize ∧
      40 + (s.inLen.toNat / 16 + 1) * 16 ≤ s.bufSize ∧ exec .build s = .next t ∧ u.version ≠ 3 ∧ u.bufSize = s.bufSize ∧
      u.inLen = t.outLen ∧ ∀ i, i < t.outLen.toNat → u.mem.read (inBase + i) = t.mem.read (outBase + i) := by
  intro v hv
  obtain ⟨w, hw, hh⟩ : ∃ w, versionOf v = some w ∧ hdrOut w = 32 := by
    simp only [List.mem_cons, List.not_mem_nil, or_false] at hv
    rcases hv with rfl | rfl
    · exact ⟨.v34, rfl, rfl⟩
    · exact ⟨.v35, rfl, rfl⟩
  have h0 : ({ State.reset with version := v } : State).inLen.toNat = 0 := rfl
  have h1 : ({ State.reset with version := v } : State).bufSize = 4096 := rfl
  obtain ⟨t, f, ht, hf, hp, -⟩ := build_outcome { State.reset with version := v } w hw (by unfold State.inLenFits; omega)
    (by rw [hh, h0, h1]; unfold paddedLen blockLen trailerLen; omega)
  exact ⟨_, t, { copyBack t with version := 0 }, rfl, by omega, by omega, ht, (show (0 : BitVec 2) ≠ 3 by decide), congrArg BitVec.toNat hp, rfl,
    fun i hi => copyBack_reads hf i hi⟩

theorem witness_AnErrorChangesOnlyStatus :
    exec .crc32 (withLen 4097) = .next ((withLen 4097).raise .inLenRange) ∧
    ((withLen 4097).raise .inLenRange).err ≠ .none := ⟨rfl, by decide⟩

/-- A command of each clause that completes. -/
theorem witness_CommandsWriteOnlyTheirResults :
    exec .nop State.reset = .next State.reset.complete ∧
    exec .crc32 State.reset = .next ({ State.reset with crc := crc32 State.reset.input } : State).complete := ⟨rfl, rfl⟩

theorem witness_OnlyASuccessfulParseSetsFallback :
    (withIn fallbackFrame).fallback = false ∧ (after .parse (withIn fallbackFrame)).map State.fallback = some true := by
  decide +kernel

/-- Each clause: an idle block; a busy one; and a byte write and a misaligned write at both ends of CMD's word. -/
theorem witness_ACmdWriteIsAcceptedWhileIdle :
    State.reset.pend = none ∧ busyState.pend ≠ none ∧
    ∀ a ∈ [(Width.w8, 0x004), (.w32, 0x007)], 0x004 ≤ a.2 ∧ a.2 < 0x008 ∧ (a.1 ≠ .w32 ∨ a.2 ≠ 0x004) := by decide

/-- The first and the last offset, and one inside STATUS's word. -/
theorem witness_ABusyWriteOnlySetsWerr :
    busyState.pend ≠ none ∧ (∀ off ∈ [0x000, 0x009, 0x2FFF], off < 0x3000 ∧ off ≠ 0x008) ∧ Width.w16 ≠ .w32 := by decide

theorem witness_CtrlKeepsVersionAndIeOnly : State.reset.pend = none := rfl

theorem witness_IdleRegisterWritesStoreOrAreIgnored :
    State.reset.pend = none ∧ 0x010 ∈ [0x010, 0x018, 0x01C, 0x020, 0x024, 0x028, 0x02C, 0x030] := ⟨rfl, by decide⟩

theorem witness_IdleRegisterReadsGiveTheirValues : State.reset.pend = none := rfl

/-- A wrong width, and a wrong alignment, in the first and the last register. -/
theorem witness_RegistersTakeAlignedWordsOnly :
    State.reset.pend = none ∧ ∀ a ∈ [(Width.w8, 0x000), (.w16, 0x032), (.w32, 0x031), (.w8, 0x033)],
      a.2 < 0x34 ∧ (a.1 ≠ .w32 ∨ a.2 % 4 ≠ 0) := by decide

theorem witness_MisalignedBufferAccessesAreIgnored :
    State.reset.pend = none ∧ ∀ a ∈ [(Width.w16, 0x035), (.w32, 0x036), (.w32, 0x2FFF)],
      0x34 ≤ a.2 ∧ a.2 < 0x3000 ∧ a.2 % a.1.bytes ≠ 0 := by decide

/-- A part whose BUF_SIZE is no multiple of 4, and both ends of each unmapped range; an access across the end of IN has one lane
in IN and the next unmapped. -/
theorem witness_UnmappedOffsetsReadZeroAndIgnoreWrites :
    let s : State := { State.reset with param := 2065 }
    s.bufSize ≤ 4096 ∧
    (∀ a ∈ [0x034, 0x03F, 0x050, 0xFFF, 0x1811, 0x1FFF, 0x2811, 0x2FFF], s.Unmapped a) ∧
    1 < Width.bytes .w32 ∧ ¬ s.Unmapped 0x1810 ∧ s.Unmapped (0x1810 + 1) ∧ 0x2FFF < 0x3000 := by
  unfold State.Unmapped
  decide

/-- The first byte of IN, and an access that starts in IN and ends past it, where BUF_SIZE is no multiple of 4. -/
theorem witness_AnIdleInWriteStoresItsLanes :
    let s : State := { State.reset with param := 2065 }
    s.pend = none ∧ s.bufSize ≤ 4096 ∧ ∀ a ∈ [(Width.w8, 0x1000), (.w32, 0x1810)],
      0x1000 ≤ a.2 ∧ a.2 < 0x1000 + s.bufSize ∧ a.2 % a.1.bytes = 0 := by decide

/-- The last lane of the first word of IN, and the first lane of a word that starts in the last byte of IN, on a part whose BUF_SIZE
is no multiple of 4. -/
theorem witness_AnInReadGivesEachByteInItsLane :
    let s : State := { State.reset with param := 2065, mem := [(0x1003, 0x34), (0x1810, 0x55)] }
    (0x1000 ≤ 0x1000 ∧ 0x1000 < 0x1000 + s.bufSize ∧ 0x1000 % Width.bytes .w32 = 0 ∧
      3 < Width.bytes .w32 ∧ 0x1000 + 3 < 0x1000 + s.bufSize ∧ s.mem.read (0x1000 + 3) = some 0x34) ∧
    (0x1000 ≤ 0x1810 ∧ 0x1810 < 0x1000 + s.bufSize ∧ 0x1810 % Width.bytes .w32 = 0 ∧
      0 < Width.bytes .w32 ∧ 0x1810 + 0 < 0x1000 + s.bufSize ∧ s.mem.read (0x1810 + 0) = some 0x55) ∧
    Width.bytes .w8 ≤ 1 := by decide

/-- The last byte of OUT on the default part, read alone, and a word that starts in the last byte of OUT on a part whose BUF_SIZE is
no multiple of 4. -/
theorem witness_OutIsReadOnlyToTheHost :
    let s : State := { State.reset with mem := [(0x2FFF, 0x55)] }
    let u : State := { State.reset with param := 2065, mem := [(0x2810, 0x55)] }
    (s.pend = none ∧ s.bufSize ≤ 4096 ∧ 0x2000 ≤ 0x2FFF ∧ 0x2FFF < 0x2000 + s.bufSize ∧ 0x2FFF % Width.bytes .w8 = 0 ∧
      0 < Width.bytes .w8 ∧ 0x2FFF + 0 < 0x2000 + s.bufSize ∧ s.mem.read (0x2FFF + 0) = some 0x55 ∧ Width.bytes .w8 ≤ 1) ∧
    (u.pend = none ∧ u.bufSize ≤ 4096 ∧ 0x2000 ≤ 0x2810 ∧ 0x2810 < 0x2000 + u.bufSize ∧ 0x2810 % Width.bytes .w32 = 0 ∧
      0 < Width.bytes .w32 ∧ 0x2810 + 0 < 0x2000 + u.bufSize ∧ u.mem.read (0x2810 + 0) = some 0x55) := by decide

theorem witness_AnIdleKeyWriteStoresItsLanes :
    State.reset.pend = none ∧ ∀ a ∈ [(Width.w8, 0x040), (.w16, 0x04E), (.w32, 0x04C), (.w8, 0x04F)],
      0x40 ≤ a.2 ∧ a.2 < 0x50 ∧ a.2 % a.1.bytes = 0 := by decide

theorem witness_KeyIsNeverAnsweredToTheHost :
    ∀ a ∈ [(Width.w32, 0x040), (.w8, 0x04F), (.w16, 0x041)], 0x40 ≤ a.2 ∧ a.2 + a.1.bytes ≤ 0x50 := by decide

theorem witness_ReadsChangeNoStateOfTheBlock : 0x2FFF < 0x3000 := by decide

/-- Two busy states that differ in every result register and in OUT. -/
theorem witness_BusyReadsDoNotDependOnTheResults :
    let s := busyState
    let u : State := { busyState with
      outLen := 1, seq := 2, crc := 3, retcode := 4, rxSeq := 5, rxCmd := 6, rxCrc := 7, frameLen := 8, mem := [(outBase, 9)] }
    s.pend ≠ none ∧ u.pend ≠ none ∧ u.draws = s.draws ∧ u.version = s.version ∧ u.ie = s.ie ∧ u.done = s.done ∧
    u.fallback = s.fallback ∧ u.werr = s.werr ∧ u.err = s.err ∧ u.inLen = s.inLen ∧ u.param = s.param ∧
    ∀ x, inBase ≤ x → x < inBase + s.bufSize → u.mem.read x = s.mem.read x := by
  refine ⟨by decide, by decide, rfl, rfl, rfl, rfl, rfl, rfl, rfl, rfl, rfl, fun x h1 h2 => ?_⟩
  have h3 : x < 0x2000 := h2
  exact if_neg (show ¬ 0x2000 = x by omega)

/-- Each clause: any busy state; a wrong width in a register; a misaligned access elsewhere. -/
theorem witness_BusyReadsOfTheSettingsAreTrue :
    busyState.pend ≠ none ∧ (0x033 < 0x34 ∧ Width.w8 ≠ .w32) ∧ (0x34 ≤ 0x035 ∧ 0x035 % Width.bytes .w16 ≠ 0) := by decide

theorem witness_TheInterruptFollowsEnableAndDone : (0x0000000A : Word).getLsbD 1 = true ∧ State.reset.pend = none := by decide

theorem witness_SetKeyLoadsTheKey :
    let s : State := { State.reset with inputs := hostSetKey (Vector.replicate 16 7) ++ hostAck }
    s.pend = none ∧ s.inputs = hostSetKey (Vector.replicate 16 7) ++ hostAck := ⟨rfl, rfl⟩

/-- The empty string, a word and a byte, and a whole buffer. -/
theorem witness_LoadInLoadsTheString :
    ∀ bs ∈ [[], [(0x31 : Byte), 0x32, 0x33, 0x34, 0x35], zeros 4096],
      let s : State := { State.reset with inputs := hostLoadIn bs ++ [] }
      s.pend = none ∧ s.bufSize ≤ 4096 ∧ bs.length ≤ s.bufSize ∧ s.inputs = hostLoadIn bs ++ [] := by
  intro bs hbs
  refine ⟨rfl, le_refl 4096, ?_, rfl⟩
  show bs.length ≤ 4096
  simp only [List.mem_cons, List.not_mem_nil, or_false] at hbs
  rcases hbs with rfl | rfl | rfl <;> simp

theorem witness_RunComesToItsEnd :
    let s : State := { State.reset with inputs := hostRun .crc32 ++ hostAck }
    s.pend = none ∧ s.inputs = hostRun .crc32 ++ hostAck := ⟨rfl, rfl⟩

/-- A pending command with a write and a POLL still to come. -/
def waiting : State := { busyState with inputs := [.access (.write .w32 0x00C 0), .poll 0x2FFC 3 2] }

theorem witness_APendingCommandIsEventuallyTaken :
    waiting.pend = some 1 ∧ waiting.InputsInWindow ∧ waiting.NoResetComing := by
  refine ⟨rfl, ?_, ?_⟩
  · unfold State.InputsInWindow; decide
  · unfold State.NoResetComing; decide

theorem witness_APendingCommandsInputsAreFrozen :
    waiting.pend = some 1 ∧ waiting.delay = 2 + 1 ∧ waiting.NoResetComing ∧ (afterSteps 1 waiting).isSome = true := by
  refine ⟨rfl, rfl, ?_, by decide +kernel⟩
  unfold State.NoResetComing; decide

theorem witness_StepsStopOnlyOutsideTheWindow : waiting.InputsInWindow ∧ 0x3000 ≤ 0x3000 :=
  ⟨witness_APendingCommandIsEventuallyTaken.2.1, le_rfl⟩

theorem witness_ResetIsLegal : 2064 ≤ 2064 ∧ 2064 ≤ 4096 ∧ 4096 ≤ 4096 := by decide

/-- A busy state with a byte in each buffer is legal, and its next step is the PARSE of a short frame. -/
theorem witness_EveryStepKeepsTheStateLegal :
    ∃ s t : State, s.Legal ∧ step s = .next t ∧ s.busy = true ∧ s.mem ≠ [] := by
  refine ⟨{ State.issue State.reset 5 0 with mem := [(0x1000, 1), (0x2000, 2)], outLen := 1 }, _, ?_, rfl, rfl, by decide⟩
  refine ⟨by decide, by decide, by decide, by decide, fun _ => ⟨rfl, rfl, rfl⟩, fun _ => rfl, by decide, ?_, by decide⟩
  intro i hi
  have h0 : i = 0 := by
    have h1 : i < 1 := hi
    omega
  subst h0
  rfl

end Sys2Proof.Tests
end

