-- ==== Sys2Proof/Proofs/BigEndian.lean ====
section
/-! PROOFS. The big-endian fields (00_scope.md R12): `be32` is the concatenation of its four bytes, `toBE32` cuts a word into
the same four fields, and the rules of concatenation make the two inverse to each other. -/

namespace Sys2Proof.Machine

open Sys2Proof

/-- Concatenation is place value: the upper part weighs `2 ^ n`, where `n` is the lower part's width. -/
theorem toNat_append_eq_mul_add {m n : Nat} (x : BitVec m) (y : BitVec n) :
    (x ++ y).toNat = x.toNat * 2 ^ n + y.toNat := by
  rw [BitVec.toNat_append, ← Nat.shiftLeft_add_eq_or_of_lt y.isLt, Nat.shiftLeft_eq]

section

variable (a b c d : Byte)

theorem be32_bytes : be32 [a, b, c, d] = a ++ b ++ c ++ d := rfl

theorem be32_bytes_toNat :
    (be32 [a, b, c, d]).toNat = a.toNat * 2 ^ 24 + b.toNat * 2 ^ 16 + c.toNat * 2 ^ 8 + d.toNat := by
  rw [be32_bytes, toNat_append_eq_mul_add, toNat_append_eq_mul_add, toNat_append_eq_mul_add]
  omega

theorem be32_bytes_byte0 : (be32 [a, b, c, d]).extractLsb' 24 8 = a := by
  rw [be32_bytes, BitVec.extractLsb'_append_eq_of_le (by decide), BitVec.extractLsb'_append_eq_of_le (by decide)]
  exact BitVec.extractLsb'_append_eq_left

theorem be32_bytes_byte1 : (be32 [a, b, c, d]).extractLsb' 16 8 = b := by
  rw [be32_bytes, BitVec.extractLsb'_append_eq_of_le (by decide), BitVec.extractLsb'_append_eq_of_le (by decide)]
  exact BitVec.extractLsb'_append_eq_right

theorem be32_bytes_byte2 : (be32 [a, b, c, d]).extractLsb' 8 8 = c := by
  rw [be32_bytes, BitVec.extractLsb'_append_eq_of_le (by decide)]
  exact BitVec.extractLsb'_append_eq_right

theorem be32_bytes_byte3 : (be32 [a, b, c, d]).extractLsb' 0 8 = d :=
  BitVec.extractLsb'_append_eq_right

theorem toBE32_be32_bytes : toBE32 (be32 [a, b, c, d]) = [a, b, c, d] := by
  rw [toBE32, be32_bytes_byte0, be32_bytes_byte1, be32_bytes_byte2, be32_bytes_byte3]

end

/-- Adjacent fields of a word join to the field that spans them, so the four of `toBE32` join to the whole word. -/
theorem be32_toBE32 (v : Word) : be32 (toBE32 v) = v := by
  rw [toBE32, be32_bytes, BitVec.extractLsb'_append_extractLsb'_eq_extractLsb' (by decide),
    BitVec.extractLsb'_append_extractLsb'_eq_extractLsb' (by decide),
    BitVec.extractLsb'_append_extractLsb'_eq_extractLsb' (by decide)]
  exact BitVec.extractLsb'_eq_self

/-- Settles O16: the weights by the place value of concatenation, both directions of the inverse by the fields of a
concatenation. -/
theorem bigEndianFieldsAreExact : Obligations.BigEndianFieldsAreExact :=
  ⟨fun a b c d => ⟨be32_bytes_toNat a b c d, toBE32_be32_bytes a b c d⟩, fun v => ⟨be32_toBE32 v, rfl⟩⟩

end Sys2Proof.Machine
end

