-- ==== Sys2Proof/Proofs/StateLegal.lean ====
section
/-! PROOFS. Every step keeps the state legal. The two ways a state can change are said once each: a change that leaves OUT as it is
(the host's), and the completion of a command over buffers that are already legal (the engine's). Each operation is one of the two,
or the reset. -/

namespace Sys2Proof.Machine

open Sys2Proof

section

variable {s t : State}

/-- A change of memory in IN only keeps a state legal, when STATUS and FRAME_LEN are legal after it. -/
theorem State.Legal.of_only_in_changed (h : s.Legal) (param : t.param = s.param) (outLen : t.outLen = s.outLen)
    (frameLen : t.frameLen.toNat ≤ hdrLen + maxRespLen) (wf : t.mem.wf)
    (listed : ∀ c ∈ t.mem, c ∈ s.mem ∨ (inBase ≤ c.1 ∧ c.1 < inBase + s.bufSize))
    (reads : ∀ x, t.mem.read x = s.mem.read x ∨ (inBase ≤ x ∧ x < inBase + s.bufSize))
    (busy : t.busy = true → t.done = false ∧ t.fallback = false ∧ t.err = .none)
    (fallback : t.fallback = true → t.err = .none) : t.Legal := by
  have size : t.bufSize = s.bufSize := congrArg BitVec.toNat param
  refine ⟨size ▸ h.bufSize_low, size ▸ h.bufSize_high, wf, fun c hc => ?_, busy, fallback, ?_, fun i hi => ?_,
    frameLen⟩
  · rw [size]
    exact (listed c hc).elim (h.mem_in_buffers c) .inl
  · rw [size, outLen]
    exact h.outLen_le
  · rw [outLen] at hi
    rcases reads (outBase + i) with hr | ⟨-, hr⟩
    · exact hr ▸ h.out_written i hi
    · have := h.bufSize_high
      simp only [inBase, outBase] at hr
      omega

/-- With memory and OUT_LEN as they were, only STATUS and FRAME_LEN have to be checked. -/
theorem State.Legal.of_same_buffers (h : s.Legal) (param : t.param = s.param) (outLen : t.outLen = s.outLen)
    (mem : t.mem = s.mem) (frameLen : t.frameLen.toNat ≤ hdrLen + maxRespLen)
    (busy : t.busy = true → t.done = false ∧ t.fallback = false ∧ t.err = .none)
    (fallback : t.fallback = true → t.err = .none) : t.Legal :=
  h.of_only_in_changed param outLen frameLen (mem ▸ h.mem_wf) (fun _ hc => .inl (mem ▸ hc)) (fun _ => .inl (by rw [mem]))
    busy fallback

/-- The model's own fields are no part of what makes a state legal. -/
theorem State.Legal.with_own_fields (h : s.Legal) (delay : Nat) (inputs : List Input) (rdata : Option Word) (draws : Nat) :
    ({ s with delay := delay, inputs := inputs, rdata := rdata, draws := draws } : State).Legal :=
  h.of_same_buffers rfl rfl rfl h.frameLen_le h.busy_status h.fallback_err

/-! ## The host and the platform -/

theorem State.Legal.hostRead (h : s.Legal) (w : Width) (off : Nat) : (s.hostRead w off).Legal :=
  h.with_own_fields _ _ _ _

theorem State.Legal.writeCtrl (h : s.Legal) (v : Word) : (s.writeCtrl v).Legal :=
  h.of_same_buffers rfl rfl rfl h.frameLen_le h.busy_status h.fallback_err

/-- A STATUS write only ever clears DONE, so it is 0 still while a command is pending. -/
theorem State.Legal.writeStatus (h : s.Legal) (v : Word) : (s.writeStatus v).Legal := by
  refine h.of_same_buffers rfl rfl rfl h.frameLen_le (fun hb => ?_) h.fallback_err
  obtain ⟨hd, hf, he⟩ := h.busy_status hb
  exact ⟨by simp [State.writeStatus, hd], hf, he⟩

/-- Acceptance clears what a pending command's STATUS must not show (40_command_lifecycle.md R130). -/
theorem State.Legal.accept (h : s.Legal) (w : Word) : (s.accept w).Legal :=
  h.of_same_buffers rfl rfl rfl h.frameLen_le (fun _ => ⟨rfl, rfl, rfl⟩) fun _ => rfl

theorem State.Legal.storeData (h : s.Legal) (w : Width) (off : Nat) (data : Word) : (s.storeData w off data).Legal := by
  have wf := State.storeData_wf h.mem_wf w off data
  rcases State.storeData_cases s w off data with e | e | e | e | e | e | ⟨k, m, e, listed, reads⟩ <;> rw [e]
  · exact h
  · exact h.writeCtrl data
  · exact h.accept data
  · exact h.writeStatus data
  · exact h.of_same_buffers rfl rfl rfl h.frameLen_le h.busy_status h.fallback_err
  · exact h.of_same_buffers rfl rfl rfl h.frameLen_le h.busy_status h.fallback_err
  · rw [e] at wf
    exact h.of_only_in_changed rfl rfl h.frameLen_le wf listed reads h.busy_status h.fallback_err

theorem State.Legal.hostWrite (h : s.Legal) (w : Width) (off : Nat) (data : Word) : (s.hostWrite w off data).Legal := by
  rcases State.hostWrite_cases s w off data with ⟨-, e | e | e⟩ | ⟨-, e⟩ <;> rw [e]
  · exact h.of_same_buffers rfl rfl rfl h.frameLen_le h.busy_status h.fallback_err
  · exact h.writeStatus data
  · exact h
  · exact h.storeData w off data

/-- The reset leaves nothing to check but BUF_SIZE, which it keeps. -/
theorem State.Legal.platformReset (h : s.Legal) : s.platformReset.Legal where
  bufSize_low := h.bufSize_low
  bufSize_high := h.bufSize_high
  mem_wf := State.platformReset_wf s
  mem_in_buffers := fun _ hc => absurd hc List.not_mem_nil
  busy_status := fun _ => ⟨rfl, rfl, rfl⟩
  fallback_err := fun _ => rfl
  outLen_le := Nat.zero_le _
  out_written := fun i hi => absurd hi (Nat.not_lt_zero i)
  frameLen_le := Nat.zero_le _

theorem State.Legal.outsideTurn (h : s.Legal) (ht : s.outsideTurn = .next t) : t.Legal := by
  have served (rest : List Input) : ({ s with inputs := rest } : State).Legal := h.with_own_fields _ _ _ _
  rcases State.outsideTurn_next ht with ⟨-, rfl⟩ | ⟨_, rest, w, off, -, -, rfl⟩ | ⟨_, rest, w, off, data, -, -, rfl⟩ |
    ⟨_, _, _, _, -, -, rfl⟩ | ⟨rest, -, rfl⟩
  · exact h
  · exact (served rest).hostRead w off
  · exact (served rest).hostWrite w off data
  · exact h.with_own_fields _ _ _ _
  · exact (served rest).platformReset

/-! ## The engine -/

/-- The shared result writes stay within OUT and write every byte that OUT_LEN counts. -/
theorem State.Legal.storeOut (h : s.Legal) {bs : Bytes} (hbs : bs.length ≤ s.bufSize) : (s.storeOut bs).Legal := by
  have lt : bs.length < 2 ^ 32 := hbs.trans_lt s.bufSize_lt
  obtain ⟨⟨outLen, written⟩, -⟩ := State.storeOut_spec s bs lt
  refine ⟨h.bufSize_low, h.bufSize_high, State.storeOut_wf h.mem_wf bs, fun c hc => ?_, h.busy_status, h.fallback_err,
    outLen ▸ hbs, fun i hi => ?_, h.frameLen_le⟩
  · rcases Memory.mem_writeBytes hc with ⟨lo, hi⟩ | hc
    · exact .inr ⟨lo, hi.trans_le (Nat.add_le_add_left hbs _)⟩
    · exact h.mem_in_buffers c hc
  · rw [written i (outLen ▸ hi)]
    rfl

/-- A command that completes over legal buffers leaves a legal state: nothing is pending and ERR is 0. -/
theorem State.Legal.complete (h : s.Legal) (param : t.param = s.param) (outLen : t.outLen = s.outLen) (mem : t.mem = s.mem)
    (frameLen : t.frameLen.toNat ≤ hdrLen + maxRespLen) : t.complete.Legal :=
  h.of_same_buffers param outLen mem frameLen (fun hb => absurd hb Bool.false_ne_true) fun _ => rfl

/-- An error keeps FALLBACK, which is 0 while the command is pending (60_exceptions.md R262). -/
theorem State.Legal.raise (h : s.Legal) (hb : s.busy = true) (c : ErrCode) : (s.raise c).Legal := by
  refine h.of_same_buffers rfl rfl rfl h.frameLen_le (fun hb => absurd hb Bool.false_ne_true) fun hf => ?_
  obtain ⟨-, hf', -⟩ := h.busy_status hb
  exact absurd (hf'.symm.trans hf) Bool.false_ne_true

theorem State.Legal.exec (h : s.Legal) (hb : s.busy = true) {i : Instr} (ht : exec i s = .next t) : t.Legal := by
  have low := h.bufSize_low
  rcases exec_cases i s with ⟨c, -, e⟩ | ⟨-, e⟩ | ⟨-, e⟩ | ⟨-, bs, hbs, e⟩ | ⟨-, bs, c, hbs, e⟩ | ⟨-, r, bs, fb, hbs, hr, e⟩ <;>
    obtain rfl := Host.Outcome.next.inj (e.symm.trans ht)
  · exact h.raise hb c
  · exact h.complete rfl rfl rfl h.frameLen_le
  · exact h.complete rfl rfl rfl h.frameLen_le
  · exact (h.storeOut hbs).complete rfl rfl rfl h.frameLen_le
  · exact (h.storeOut hbs).complete rfl rfl rfl h.frameLen_le
  · refine (h.storeOut (hbs.trans (by omega))).complete rfl rfl rfl ?_
    rw [State.storeResponse_frameLen, BitVec.toNat_ofNat]
    exact (Nat.mod_le _ _).trans (Nat.add_le_add_left hr _)

theorem State.Legal.engineStep (h : s.Legal) (hb : s.busy = true) {w : Word} (ht : engineStep w s = .next t) : t.Legal := by
  unfold Machine.engineStep at ht
  split at ht
  · exact h.exec hb ht
  · obtain rfl := Host.Outcome.next.inj ht
    exact h.raise hb .illegalCmd

end

/-- Settles O60: a step is the engine's on a pending word, or the turn of the host and the platform. -/
theorem everyStepKeepsTheStateLegal : Obligations.EveryStepKeepsTheStateLegal := by
  intro s t h ht
  rcases step_cases s with ⟨w, hp, -, e⟩ | ⟨w, n, -, -, e⟩ | ⟨-, e⟩ <;> rw [e] at ht
  · exact h.engineStep (by simp [State.busy, hp]) ht
  · exact (h.with_own_fields n _ _ _).outsideTurn ht
  · exact h.outsideTurn ht

end Sys2Proof.Machine
end

