-- ==== Sys2Proof/Proofs/Status.lean ====
section
/-! PROOFS. The fields of STATUS: where a read shows them (10_state.md R26, R27), and which command sets FALLBACK (R29). -/

namespace Sys2Proof.Machine

open Sys2Proof

/-- A flag appended below other fields is bit 0. -/
theorem getLsbD_append_bitField_zero {n : Nat} (x : BitVec n) (b : Bool) : (x ++ bitField b).getLsbD 0 = b := by
  rw [BitVec.getLsbD_append, if_pos (by decide)]
  simp [bitField]

/-- The fields above it stand one bit higher. -/
theorem getLsbD_append_bitField_succ {n : Nat} (x : BitVec n) (b : Bool) (i : Nat) :
    (x ++ bitField b).getLsbD (i + 1) = x.getLsbD i := by
  rw [BitVec.getLsbD_append, if_neg (by omega), Nat.add_sub_cancel]

section

variable (s : State)

theorem State.statusWord_busy : s.statusWord.getLsbD 0 = s.busy := getLsbD_append_bitField_zero _ _

theorem State.statusWord_done : s.statusWord.getLsbD 1 = s.done := by
  unfold State.statusWord
  rw [getLsbD_append_bitField_succ, getLsbD_append_bitField_zero]

theorem State.statusWord_fallback : s.statusWord.getLsbD 2 = s.fallback := by
  unfold State.statusWord
  rw [getLsbD_append_bitField_succ, getLsbD_append_bitField_succ, getLsbD_append_bitField_zero]

theorem State.statusWord_werr : s.statusWord.getLsbD 3 = s.werr := by
  unfold State.statusWord
  rw [getLsbD_append_bitField_succ, getLsbD_append_bitField_succ, getLsbD_append_bitField_succ,
    getLsbD_append_bitField_zero]

/-- Above its four flags, STATUS holds ERR between two reserved fields. -/
theorem State.statusWord_extract_above_flags (start len : Nat) (h : 4 ≤ start) :
    s.statusWord.extractLsb' start len =
      ((0 : BitVec 20) ++ s.err.code ++ (0 : BitVec 4)).extractLsb' (start - 4) len := by
  unfold State.statusWord
  iterate 4 rw [BitVec.extractLsb'_append_eq_of_le (by omega)]
  rfl

theorem State.statusWord_reserved_low : s.statusWord.extractLsb' 4 4 = 0 := by
  rw [State.statusWord_extract_above_flags s 4 4 (by decide)]
  exact BitVec.extractLsb'_append_eq_right

theorem State.statusWord_err : s.statusWord.extractLsb' 8 4 = s.err.code := by
  rw [State.statusWord_extract_above_flags s 8 4 (by decide), BitVec.extractLsb'_append_eq_of_le (by decide)]
  exact BitVec.extractLsb'_append_eq_right

theorem State.statusWord_reserved_high : s.statusWord.extractLsb' 12 20 = 0 := by
  rw [State.statusWord_extract_above_flags s 12 20 (by decide), BitVec.extractLsb'_append_eq_of_le (by decide)]
  exact BitVec.extractLsb'_append_eq_left

/-- An aligned 32-bit read in the register region answers the register (20_memory.md R64). -/
theorem State.readData_word_register {off : Nat} (h : off < 0x34) (ha : off % 4 = 0) :
    s.readData .w32 off = s.readRegister off := by
  rw [State.readData_register s .w32 off h, if_pos ⟨rfl, ha⟩]

/-- STATUS reads true at any time (40_command_lifecycle.md R138). -/
theorem State.readData_status : s.readData .w32 0x008 = s.statusWord :=
  s.readData_word_register (by decide) (by decide)

end

/-- Settles O35: the read answers `statusWord`, whose fields are read off its concatenation. -/
theorem statusReadsItsFields : Obligations.StatusReadsItsFields := by
  intro s
  rw [s.readData_status]
  refine ⟨?_, s.statusWord_done, s.statusWord_fallback, s.statusWord_werr, s.statusWord_reserved_low, s.statusWord_err,
    s.statusWord_reserved_high⟩
  rw [s.statusWord_busy, State.busy, Option.isSome_iff_ne_none]

/-- A command keeps FALLBACK, unless it is a PARSE that completes: an error keeps it, and so does every other completion. -/
theorem exec_fallback {i : Instr} {s t : State} (ht : exec i s = .next t) :
    t.fallback = s.fallback ∨ (i = .parse ∧ t.err = .none) := by
  rcases exec_cases i s with ⟨c, -, e⟩ | ⟨-, e⟩ | ⟨-, e⟩ | ⟨-, bs, -, e⟩ | ⟨-, bs, c, -, e⟩ | ⟨hi, r, bs, fb, -, -, e⟩ <;>
    obtain rfl := Host.Outcome.next.inj (e.symm.trans ht)
  · exact .inl rfl
  · exact .inl rfl
  · exact .inl rfl
  · exact .inl rfl
  · exact .inl rfl
  · exact .inr ⟨hi, rfl⟩

/-- Settles O31: where FALLBACK rose, it was not kept. -/
theorem onlyASuccessfulParseSetsFallback : Obligations.OnlyASuccessfulParseSetsFallback := by
  intro i s t h0 ht h1
  have risen : t.fallback ≠ s.fallback := by rw [h0, h1]; decide
  exact (exec_fallback ht).resolve_left risen

end Sys2Proof.Machine
end

