-- ==== Sys2Proof/Proofs/Registers.lean ====
section
/-! PROOFS. The host's 32-bit accesses to the registers (10_state.md R22, R23): what an idle write stores, what an idle read answers,
and what writes of CTRL, CMD and STATUS do to the interrupt (R46). -/

namespace Sys2Proof.Machine

open Sys2Proof

section

variable (s : State)

/-- An idle aligned 32-bit write in the register region writes the register (20_memory.md R64). -/
theorem State.hostAccess_write_register (v : Word) (hp : s.pend = none) {off : Nat} (h : off < 0x34) (ha : off % 4 = 0) :
    s.hostAccess (.write .w32 off v) = .next (s.writeRegister off v) := by
  rw [State.hostAccess_write_idle s .w32 off v hp (by omega), State.storeData_register s .w32 off v h, if_pos ⟨rfl, ha⟩]

/-- While idle a result register reads its value (40_command_lifecycle.md R138). -/
theorem State.resultReg_idle (hp : s.pend = none) (off : Nat) (v : Word) : s.resultReg off v = v := by
  simp [State.resultReg, State.busy, hp]

/-- A one-bit field of a word is the word's bit. -/
theorem bitField_getLsbD (v : Word) (i : Nat) : bitField (v.getLsbD i) = v.extractLsb' i 1 := by
  ext j hj
  simp [bitField, show j = 0 by omega]

/-- The mask 0x103 keeps the fields of a word where CTRL has IE and VERSION, and clears the two between and above them. -/
theorem and_ctrl_mask (v : Word) :
    v &&& 0x00000103 = (0 : BitVec 23) ++ v.extractLsb' 8 1 ++ (0 : BitVec 6) ++ v.extractLsb' 0 2 := by
  have fields : v.extractLsb' 9 23 ++ v.extractLsb' 8 1 ++ v.extractLsb' 2 6 ++ v.extractLsb' 0 2 = v := by
    rw [BitVec.extractLsb'_append_extractLsb'_eq_extractLsb' (by decide),
      BitVec.extractLsb'_append_extractLsb'_eq_extractLsb' (by decide),
      BitVec.extractLsb'_append_extractLsb'_eq_extractLsb' (by decide)]
    exact BitVec.extractLsb'_eq_self
  have mask : (0x00000103 : Word) = (0 : BitVec 23) ++ BitVec.allOnes 1 ++ (0 : BitVec 6) ++ BitVec.allOnes 2 := by decide
  calc v &&& 0x00000103
      = (v.extractLsb' 9 23 ++ v.extractLsb' 8 1 ++ v.extractLsb' 2 6 ++ v.extractLsb' 0 2) &&&
          ((0 : BitVec 23) ++ BitVec.allOnes 1 ++ (0 : BitVec 6) ++ BitVec.allOnes 2) := by rw [fields, ← mask]
    _ = _ := by
      rw [BitVec.and_append, BitVec.and_append, BitVec.and_append, BitVec.and_allOnes, BitVec.and_allOnes]
      exact congrArg₂ _ (congrArg₂ _ (congrArg₂ _ BitVec.and_zero rfl) BitVec.and_zero) rfl

/-- CTRL reads back what was written, but for the reserved bits. -/
theorem State.ctrlWord_writeCtrl (v : Word) : (s.writeCtrl v).ctrlWord = v &&& 0x00000103 := by
  rw [and_ctrl_mask, ← bitField_getLsbD]
  rfl

end

/-- Settles O36: the write is `writeCtrl`, and the mask is what CTRL reads back. -/
theorem ctrlKeepsVersionAndIeOnly : Obligations.CtrlKeepsVersionAndIeOnly := by
  intro s v hp
  refine ⟨s.writeCtrl v, s.hostAccess_write_register v hp (by decide) (by decide), rfl, rfl, ?_, rfl⟩
  rw [State.readData_word_register _ (by decide) (by decide)]
  exact s.ctrlWord_writeCtrl v

/-- Settles O37: each offset is an arm of `writeRegister`, or none of its arms. -/
theorem idleRegisterWritesStoreOrAreIgnored : Obligations.IdleRegisterWritesStoreOrAreIgnored := by
  intro s v hp
  refine ⟨s.hostAccess_write_register v hp (by decide) (by decide),
    s.hostAccess_write_register v hp (by decide) (by decide), ?_⟩
  simp only [List.forall_mem_cons, List.not_mem_nil, false_imp_iff, implies_true, and_true]
  refine ⟨?_, ?_, ?_, ?_, ?_, ?_, ?_, ?_⟩ <;> exact s.hostAccess_write_register v hp (by decide) (by decide)

/-- Settles O38: each offset is an arm of `readRegister`, and a result register reads its value while idle. -/
theorem idleRegisterReadsGiveTheirValues : Obligations.IdleRegisterReadsGiveTheirValues := by
  intro s hp
  have reg {off : Nat} (h : off < 0x34) (ha : off % 4 = 0) := s.readData_word_register h ha
  have result {off : Nat} {v : Word} (h : off < 0x34) (ha : off % 4 = 0) (e : s.readRegister off = s.resultReg off v) :
      s.readData .w32 off = v := (reg h ha).trans (e.trans (s.resultReg_idle hp off v))
  refine ⟨reg ?_ ?_, reg ?_ ?_, reg ?_ ?_, reg ?_ ?_, result ?_ ?_ rfl, result ?_ ?_ rfl, result ?_ ?_ rfl, result ?_ ?_ rfl,
    result ?_ ?_ rfl, result ?_ ?_ rfl, result ?_ ?_ rfl, result ?_ ?_ rfl, reg ?_ ?_⟩ <;> decide

/-- Settles O50: `irq` is 0 where DONE was cleared; a CTRL write leaves DONE alone and sets IE. -/
theorem theInterruptFollowsEnableAndDone : Obligations.TheInterruptFollowsEnableAndDone := by
  intro s v
  refine ⟨fun h1 => ?_, fun hp => ?_, fun hp => ?_⟩
  · have cleared : (s.writeStatus v).done = false := by simp [State.writeStatus, h1]
    exact ⟨_, s.hostAccess_write_status v, cleared, by rw [State.irq, cleared, Bool.and_false]⟩
  · refine ⟨s.accept v, s.hostAccess_write_register v hp (by decide) (by decide), rfl, ?_⟩
    rw [State.irq, State.accept_done, Bool.and_false]
  · exact ⟨s.writeCtrl v, s.hostAccess_write_register v hp (by decide) (by decide), rfl, rfl⟩

end Sys2Proof.Machine
end

