-- ==== Sys2Proof/Proofs/KeyStore.lean ====
section
/-! PROOFS. The key store (10_state.md R42): an aligned write stores its lanes, and nothing the host reads depends on it. -/

namespace Sys2Proof.Machine

open Sys2Proof

section

variable (s : State)

/-- A lane of a write to a key byte stores it. -/
theorem State.writeLane_key {a : Nat} (b : Byte) (h1 : 0x40 ≤ a) (h2 : a < 0x50) :
    s.writeLane a b = { s with key := s.key.setIfInBounds (a - 0x40) b } := by
  unfold State.writeLane
  rw [regionOf_key h1 h2]
  rfl

/-- A key byte's lane of a read is 0. -/
theorem State.readLane_key {a : Nat} (h1 : 0x40 ≤ a) (h2 : a < 0x50) : s.readLane a = 0 := by
  unfold State.readLane
  rw [regionOf_key h1 h2]

/-- The first `n` lanes of a write that stays inside KEY store their key bytes and change nothing else. -/
theorem State.writeLanes_key (off : Nat) (data : Word) (n : Nat) (h1 : 0x40 ≤ off) (h2 : off + n ≤ 0x50) :
    ∃ k : Key, (List.range n).foldl (fun t j => t.writeLane (off + j) (laneOf data j)) s = { s with key := k } ∧
      ∀ i : Fin 16, k[i] = if off ≤ 0x40 + i.val ∧ 0x40 + i.val < off + n
        then laneOf data (0x40 + i.val - off) else s.key[i] := by
  induction n with
  | zero => exact ⟨s.key, rfl, fun i => (if_neg (by omega)).symm⟩
  | succ n ih =>
    obtain ⟨k, hk, hi⟩ := ih (by omega)
    refine ⟨k.setIfInBounds (off + n - 0x40) (laneOf data n), ?_, fun i => ?_⟩
    · rw [List.range_succ, List.foldl_append, hk]
      exact State.writeLane_key _ _ (by omega) (by omega)
    · rw [Fin.getElem_fin, Vector.getElem_setIfInBounds i.isLt]
      by_cases last : off + n - 0x40 = i.val
      · rw [if_pos last, if_pos (by omega), show 0x40 + i.val - off = n by omega]
      · rw [if_neg last, ← Fin.getElem_fin, hi i]
        exact if_congr (by omega) rfl rfl

/-- An aligned access that starts in KEY ends in it: KEY's ends are multiples of every width. -/
theorem aligned_key_access_end {w : Width} {off : Nat} (h : off < 0x50) (ha : off % w.bytes = 0) : off + w.bytes ≤ 0x50 := by
  cases w <;> simp only [Width.bytes] at ha ⊢ <;> omega

/-- A read of KEY alone answers 0. -/
theorem State.readData_key {w : Width} {off : Nat} (h1 : 0x40 ≤ off) (h2 : off + w.bytes ≤ 0x50) : s.readData w off = 0 :=
  s.readData_zero_lanes w off (by omega) fun _ _ => s.readLane_key (by omega) (by omega)

section

variable (k : Key)

theorem State.readRegister_of_key (off : Nat) : ({ s with key := k } : State).readRegister off = s.readRegister off := rfl

theorem State.readLane_of_key (a : Nat) : ({ s with key := k } : State).readLane a = s.readLane a := rfl

/-- No read depends on KEY: neither a register's value nor a lane's does. -/
theorem State.readData_of_key (w : Width) (off : Nat) : ({ s with key := k } : State).readData w off = s.readData w off := by
  unfold State.readData
  simp only [State.readRegister_of_key, State.readLane_of_key]

end

end

/-- Settles O45: the lanes of the write, all of which are key bytes. -/
theorem anIdleKeyWriteStoresItsLanes : Obligations.AnIdleKeyWriteStoresItsLanes := by
  intro s w off data hp h1 h2 ha
  rw [State.hostAccess_write_idle s w off data hp (by omega), State.storeData_lanes s w off data (by omega) ha]
  obtain ⟨k, hk, hi⟩ := s.writeLanes_key off data w.bytes h1 (aligned_key_access_end h2 ha)
  exact ⟨k, congrArg _ hk, hi⟩

/-- Settles O46: every lane of KEY reads 0, and KEY is in no register and no lane. -/
theorem keyIsNeverAnsweredToTheHost : Obligations.KeyIsNeverAnsweredToTheHost :=
  fun s k w off => ⟨s.readData_key, s.readData_of_key k w off⟩

end Sys2Proof.Machine
end

