-- ==== Sys2Proof/Proofs/Window.lean ====
section
/-! PROOFS. The host's accesses to the window outside KEY (20_memory.md R63 to R71, R75): what a wrong width or alignment does, and
what each lane of an aligned access to IN, OUT or an unmapped offset does. -/

namespace Sys2Proof.Machine

open Sys2Proof

/-! ## The lanes of an access -/

/-- A word has four lanes: above them there is nothing but 0. -/
theorem word_lane_past_end (v : Word) {j : Nat} (h : 4 ≤ j) : v.extractLsb' (8 * j) 8 = 0 := by
  ext i hi
  rw [BitVec.getElem_extractLsb', BitVec.getLsbD_of_ge _ _ (by omega)]
  simp

/-- An aligned access that starts below a multiple of 4 ends at or below it: it crosses no bound of the registers' region, nor of a
range of unmapped offsets. -/
theorem aligned_lane_lt {w : Width} {off j k : Nat} (h : off < 4 * k) (ha : off % w.bytes = 0) (hj : j < w.bytes) :
    off + j < 4 * k := by
  cases w <;> simp only [Width.bytes] at ha hj <;> omega

/-- Past the end of IN there is OUT, or nothing. -/
theorem regionOf_past_in {b off : Nat} (h : 0x1000 + b ≤ off) : regionOf b off = .outBuf ∨ regionOf b off = .unmapped := by
  obtain ⟨e1, e2, e3, -⟩ := region_bounds
  unfold regionOf
  rw [if_neg (by omega), if_neg (by omega), if_neg (by omega)]
  split_ifs
  · exact .inl rfl
  · exact .inr rfl

section

variable (s : State)

theorem State.regionOf_of_unmapped (hb : s.bufSize ≤ 4096) {a : Nat} (h : s.Unmapped a) :
    regionOf s.bufSize a = .unmapped :=
  regionOf_unmapped hb (h.imp id (Or.imp id (Or.imp id And.left)))

/-- Each range of unmapped offsets ends at a multiple of 4. -/
theorem State.Unmapped.lane {s : State} {w : Width} {off j : Nat} (h : s.Unmapped off) (ha : off % w.bytes = 0)
    (hj : j < w.bytes) : s.Unmapped (off + j) := by
  rcases h with ⟨h1, h2⟩ | ⟨h1, h2⟩ | ⟨h1, h2⟩ | ⟨h1, h2⟩
  · exact .inl ⟨by omega, aligned_lane_lt (k := 0x10) h2 ha hj⟩
  · exact .inr (.inl ⟨by omega, aligned_lane_lt (k := 0x400) h2 ha hj⟩)
  · exact .inr (.inr (.inl ⟨by omega, aligned_lane_lt (k := 0x800) h2 ha hj⟩))
  · exact .inr (.inr (.inr ⟨by omega, aligned_lane_lt (k := 0xC00) h2 ha hj⟩))

theorem State.readLane_unmapped (hb : s.bufSize ≤ 4096) {a : Nat} (h : s.Unmapped a) : s.readLane a = 0 := by
  unfold State.readLane
  rw [s.regionOf_of_unmapped hb h]

/-- A written byte of IN reads in its lane, busy or not (20_memory.md R69, R70). -/
theorem State.readLane_in {a : Nat} {b : Byte} (h1 : 0x1000 ≤ a) (h2 : a < 0x1000 + s.bufSize) (h : s.mem.read a = some b) :
    s.readLane a = b := by
  unfold State.readLane
  rw [regionOf_inBuf h1 h2]
  exact State.readByte_of_read h

/-- A written byte of OUT reads in its lane while idle (20_memory.md R71). -/
theorem State.readLane_out (hp : s.pend = none) (hb : s.bufSize ≤ 4096) {a : Nat} {b : Byte} (h1 : 0x2000 ≤ a)
    (h2 : a < 0x2000 + s.bufSize) (h : s.mem.read a = some b) : s.readLane a = b := by
  unfold State.readLane
  rw [regionOf_outBuf hb h1 h2]
  simp [State.busy, hp, State.readByte_of_read h]

/-- The lanes of an aligned read outside the registers, 0 above its width (20_memory.md R65, R67; log 6). -/
theorem State.readData_lane {w : Width} {off : Nat} (h : 0x34 ≤ off) (ha : off % w.bytes = 0) (j : Nat) :
    (s.readData w off).extractLsb' (8 * j) 8 = if j < w.bytes then s.readLane (off + j) else 0 := by
  by_cases hj : j < 4
  · rw [s.readData_lanes w off h ha, leWord_lane _ j hj]
    simp
  · obtain ⟨-, width⟩ := width_bytes_bounds w
    rw [word_lane_past_end _ (by omega), if_neg (by omega)]

/-- A lane of a write to a byte of IN stores it (20_memory.md R70). -/
theorem State.writeLane_in {a : Nat} (b : Byte) (h1 : 0x1000 ≤ a) (h2 : a < 0x1000 + s.bufSize) :
    s.writeLane a b = { s with mem := s.mem.write a b } := by
  unfold State.writeLane
  rw [regionOf_inBuf h1 h2]

/-- OUT and the unmapped offsets ignore a lane of a write (20_memory.md R63, R71). -/
theorem State.writeLane_ignored {a : Nat} (b : Byte)
    (h : regionOf s.bufSize a = .outBuf ∨ regionOf s.bufSize a = .unmapped) : s.writeLane a b = s := by
  unfold State.writeLane
  rcases h with h | h <;> rw [h]

/-- The first `n` lanes of a write that starts in IN store the bytes of IN they cover, and change nothing else. -/
theorem State.writeLanes_in (off : Nat) (data : Word) (n : Nat) (h1 : 0x1000 ≤ off) :
    ∃ m, (List.range n).foldl (fun t j => t.writeLane (off + j) (laneOf data j)) s = { s with mem := m } ∧
      ∀ x, m.read x = if off ≤ x ∧ x < off + n ∧ x < 0x1000 + s.bufSize
        then some (laneOf data (x - off)) else s.mem.read x := by
  induction n with
  | zero => exact ⟨s.mem, rfl, fun x => (if_neg (by omega)).symm⟩
  | succ n ih =>
    obtain ⟨m, hm, reads⟩ := ih
    rw [List.range_succ, List.foldl_append, hm]
    by_cases inside : off + n < 0x1000 + s.bufSize
    · refine ⟨m.write (off + n) (laneOf data n), State.writeLane_in _ _ (by omega) inside, fun x => ?_⟩
      rw [Memory.read_write]
      by_cases last : x = off + n
      · rw [if_pos last, if_pos (by omega), show x - off = n by omega]
      · rw [if_neg last, reads x]
        exact if_congr (by omega) rfl rfl
    · refine ⟨m, State.writeLane_ignored _ _ (regionOf_past_in (not_lt.mp inside)), fun x => ?_⟩
      rw [reads x]
      exact if_congr (by omega) rfl rfl

end

/-! ## Accesses that read 0 and write nothing -/

/-- Settles O47: what a read of the window does is `hostRead`, which writes the answer and the event number. -/
theorem readsChangeNoStateOfTheBlock : Obligations.ReadsChangeNoStateOfTheBlock :=
  fun _ _ _ h => if_pos h

/-- Settles O39: the register's own read and write are behind the test of width and alignment. -/
theorem registersTakeAlignedWordsOnly : Obligations.RegistersTakeAlignedWordsOnly := by
  intro s w off data hp h wrong
  have no_word : ¬(w = .w32 ∧ off % 4 = 0) := fun ⟨hw, ha⟩ => wrong.elim (· hw) (· ha)
  refine ⟨(s.readData_register w off h).trans (if_neg no_word), ?_⟩
  rw [s.hostAccess_write_idle w off data hp (by omega), s.storeData_register w off data h, if_neg no_word]

/-- Settles O40: alignment is tested before an access is cut into lanes. -/
theorem misalignedBufferAccessesAreIgnored : Obligations.MisalignedBufferAccessesAreIgnored := by
  intro s w off data hp h1 h2 ha
  refine ⟨s.readData_misaligned w off h1 ha, ?_⟩
  rw [s.hostAccess_write_idle w off data hp h2, s.storeData_misaligned w off data h1 ha]

section

variable (s : State) (hb : s.bufSize ≤ 4096)

include hb

/-- An unmapped lane reads 0 in any access: one that starts in the registers is no aligned word of them, and a misaligned one
reads 0 throughout. -/
theorem State.readData_unmapped_lane {w : Width} {off j : Nat} (hj : j < w.bytes) (hu : s.Unmapped (off + j)) :
    (s.readData w off).extractLsb' (8 * j) 8 = 0 := by
  by_cases reg : off < 0x34
  · have no_word : ¬(w = .w32 ∧ off % 4 = 0) := by
      rintro ⟨rfl, ha⟩
      have inside : off + j < 0x34 := aligned_lane_lt (w := .w32) (k := 0xD) reg ha hj
      unfold State.Unmapped at hu
      omega
    rw [s.readData_register w off reg, if_neg no_word]
    exact BitVec.extractLsb'_zero
  · by_cases ha : off % w.bytes = 0
    · rw [s.readData_lane (not_lt.mp reg) ha, if_pos hj, s.readLane_unmapped hb hu]
    · rw [s.readData_misaligned w off (not_lt.mp reg) ha]
      exact BitVec.extractLsb'_zero

/-- The lanes of an aligned access to an unmapped offset are unmapped, and a misaligned access has none. -/
theorem State.unmapped_access_ignored {w : Width} {off : Nat} (data : Word) (hu : s.Unmapped off) :
    s.readData w off = 0 ∧ s.storeData w off data = s := by
  have reg : 0x34 ≤ off := by unfold State.Unmapped at hu; omega
  by_cases ha : off % w.bytes = 0
  · exact ⟨s.readData_zero_lanes w off reg fun _ hj => s.readLane_unmapped hb (hu.lane ha hj),
      s.storeData_ignored w off data reg fun _ hj b => s.writeLane_ignored b (.inr (s.regionOf_of_unmapped hb (hu.lane ha hj)))⟩
  · exact ⟨s.readData_misaligned w off reg ha, s.storeData_misaligned w off data reg ha⟩

end

/-- Settles O41: lane by lane, then for a whole access; that no access stops the block is the test of the window's end. -/
theorem unmappedOffsetsReadZeroAndIgnoreWrites : Obligations.UnmappedOffsetsReadZeroAndIgnoreWrites := by
  intro s w off data hb
  refine ⟨fun j => s.readData_unmapped_lane hb, fun hu => ?_, fun h => ⟨⟨_, if_pos h⟩, _, if_pos h⟩⟩
  obtain ⟨read, write⟩ := s.unmapped_access_ignored hb (w := w) data hu
  have window : off < 0x3000 := by unfold State.Unmapped at hu; omega
  exact ⟨read, fun hp => by rw [s.hostAccess_write_idle w off data hp window, write]⟩

/-! ## IN and OUT -/

/-- Settles O42: the lanes of the write, of which those past the end of IN are ignored. -/
theorem anIdleInWriteStoresItsLanes : Obligations.AnIdleInWriteStoresItsLanes := by
  intro s w off data hp hb h1 h2 ha
  rw [s.hostAccess_write_idle w off data hp (by omega), s.storeData_lanes w off data (by omega) ha]
  obtain ⟨m, hm, reads⟩ := s.writeLanes_in off data w.bytes h1
  exact ⟨m, congrArg _ hm, reads⟩

/-- Settles O43: the lanes of the read, each of which is its byte. -/
theorem anInReadGivesEachByteInItsLane : Obligations.AnInReadGivesEachByteInItsLane := by
  intro s w off j b h1 _ ha
  rw [s.readData_lane (by omega) ha]
  refine ⟨fun hj inside written => ?_, fun above => if_neg (not_lt.mpr above)⟩
  rw [if_pos hj]
  exact s.readLane_in (by omega) inside written

/-- Settles O44: every lane of a write lies past the end of IN, where it is ignored; a read gives each lane its byte. -/
theorem outIsReadOnlyToTheHost : Obligations.OutIsReadOnlyToTheHost := by
  intro s w off data hp hb h1 h2
  refine ⟨?_, fun ha j b => ?_⟩
  · rw [s.hostAccess_write_idle w off data hp (by omega), s.storeData_ignored w off data (by omega)]
    exact fun j _ b => s.writeLane_ignored b (regionOf_past_in (by omega))
  · rw [s.readData_lane (by omega) ha]
    refine ⟨fun hj inside written => ?_, fun above => if_neg (not_lt.mpr above)⟩
    rw [if_pos hj]
    exact s.readLane_out hp hb (by omega) inside written

end Sys2Proof.Machine
end

