-- ==== Sys2Proof/Proofs/Encoding.lean ====
section
/-! PROOFS. Decoding against encoding (30_encoding.md R90 to R94): a word is its two fields, RES and OPCODE, so once RES is 0 there
are sixteen words left to look at; and what the engine does with a word that is no command. -/

namespace Sys2Proof.Machine

open Sys2Proof

/-- RES and OPCODE are all of a command word (30_encoding.md R90). -/
theorem reservedOf_append_opcodeOf (w : Word) : reservedOf w ++ opcodeOf w = w :=
  (BitVec.extractLsb'_append_extractLsb'_eq_extractLsb' (by decide)).trans BitVec.extractLsb'_eq_self

/-- RES is tested before OPCODE is looked at (30_encoding.md R92). -/
theorem decode_of_reserved {w : Word} (h : reservedOf w ≠ 0) : decode w = .error .reservedBits := if_pos h

theorem decode_encode (i : Instr) : decode (encode i) = .ok i := by cases i <;> rfl

/-- Among the sixteen words with RES = 0, a command's word is the only one that decodes to it. -/
theorem encode_of_decode_opcode (op : BitVec 4) (i : Instr) :
    decode ((0 : BitVec 28) ++ op) = .ok i → encode i = (0 : BitVec 28) ++ op := by
  revert op
  cases i <;> decide

theorem encode_of_decode {w : Word} {i : Instr} (h : decode w = .ok i) : encode i = w := by
  by_cases res : reservedOf w = 0
  · have fields : (0 : BitVec 28) ++ opcodeOf w = w := by rw [← res, reservedOf_append_opcodeOf]
    rw [← fields] at h ⊢
    exact encode_of_decode_opcode _ _ h
  · cases (decode_of_reserved res).symm.trans h

/-- Decode and encode agree on every word. -/
theorem decode_eq_ok_iff {w : Word} {i : Instr} : decode w = .ok i ↔ encode i = w :=
  ⟨encode_of_decode, fun h => h ▸ decode_encode i⟩

/-- Settles O1: each row's clause is the equivalence of decode and encode at that row. -/
theorem aWordSelectsARowExactlyWhenItEqualsTheMatchValue :
    Obligations.AWordSelectsARowExactlyWhenItEqualsTheMatchValue := by
  intro w
  have row (i : Instr) : decode w = .ok i ↔ w = encode i := decode_eq_ok_iff.trans eq_comm
  exact ⟨row .nop, row .crc32, row .encrypt, row .decrypt, row .build, row .parse, fun _ => decode_eq_ok_iff⟩

/-- The lanes of a command's word, lowest first, decode to it (20_memory.md R67). -/
theorem decodeBytes_lanesOfWord (w : Word) : decodeBytes (lanesOfWord w) = decode w := by
  have join : wordOfLanes (w.extractLsb' 0 8) (w.extractLsb' 8 8) (w.extractLsb' 16 8) (w.extractLsb' 24 8) = w := by
    unfold wordOfLanes
    rw [BitVec.extractLsb'_append_extractLsb'_eq_extractLsb' (by decide),
      BitVec.extractLsb'_append_extractLsb'_eq_extractLsb' (by decide),
      BitVec.extractLsb'_append_extractLsb'_eq_extractLsb' (by decide)]
    exact BitVec.extractLsb'_eq_self
  exact congrArg decode join

theorem decodeBytes_encodeBytes (i : Instr) : decodeBytes (encodeBytes i) = .ok i :=
  (decodeBytes_lanesOfWord _).trans (decode_encode i)

/-- Settles O2: the six rows are their commands' bytes; the other three words have a bit of RES set, or an OPCODE outside the
map. -/
theorem wordsOfTheOpcodeMapDecode : Obligations.WordsOfTheOpcodeMapDecode :=
  ⟨decodeBytes_encodeBytes .nop, decodeBytes_encodeBytes .crc32, decodeBytes_encodeBytes .encrypt,
    decodeBytes_encodeBytes .decrypt, decodeBytes_encodeBytes .build, decodeBytes_encodeBytes .parse,
    decode_of_reserved (by decide), decode_of_reserved (by decide), rfl⟩

/-- A word with a bit of RES set, or with OPCODE 0x6 to 0xF, is no command: every command's word has RES = 0 and an OPCODE up to
5. -/
theorem decode_illegal {w : Word} (h : reservedOf w ≠ 0 ∨ 6 ≤ (opcodeOf w).toNat) (i : Instr) : decode w ≠ .ok i := by
  intro hd
  have legal : Laws.EncodingFields.Statement i := by
    cases i
    · exact Laws.EncodingFields.nop
    · exact Laws.EncodingFields.crc32
    · exact Laws.EncodingFields.encrypt
    · exact Laws.EncodingFields.decrypt
    · exact Laws.EncodingFields.build
    · exact Laws.EncodingFields.parse
  obtain ⟨res, op, -⟩ := legal
  rw [encode_of_decode hd] at res op
  exact h.elim (· res) (fun h => by omega)

/-- The engine's step on a word that is no command (40_command_lifecycle.md R135). -/
theorem engineStep_illegal {w : Word} (h : ∀ i, decode w ≠ .ok i) (s : State) :
    engineStep w s = .next (s.raise .illegalCmd) := by
  unfold engineStep
  split
  · next i hi => exact absurd hi (h i)
  · rfl

/-- A pending word whose delay has run out takes its engine step (40_command_lifecycle.md R131). -/
theorem step_engine {s : State} {w : Word} (hp : s.pend = some w) (hd : s.delay = 0) : step s = engineStep w s := by
  simp only [step, advance, hp, hd]

/-- Settles O3: the pending word is no command, so the step is the error completion. -/
theorem anIllegalWordCompletesWithIllegalCmd : Obligations.AnIllegalWordCompletesWithIllegalCmd := by
  intro s w hp hd illegal
  refine ⟨s.raise .illegalCmd, ?_, s.raise_ended _, s.raise_onlyStatus _⟩
  rw [step_engine hp hd, engineStep_illegal (decode_illegal illegal)]

end Sys2Proof.Machine
end

