-- ==== Sys2Proof/Proofs/RequestFrame.lean ====
section
/-! PROOFS. The request frame (30_encoding.md R99 to R101): where each field of `reqFrame` stands, once for the three versions, and
what a BUILD that fits leaves. -/

namespace Sys2Proof.Machine

open Sys2Proof

/-- A field stands right behind what precedes it, whatever follows. -/
theorem slice_field {f x y : Bytes} {a b : Nat} (hf : x ++ y <+: f) (ha : x.length = a) (hb : a + y.length = b) :
    slice f a b = y := by
  obtain ⟨z, rfl⟩ := hf
  subst ha hb
  rw [slice_append_left _ _ _ _ (by simp), slice_append_right _ _ _ _ le_rfl, Nat.sub_self, Nat.add_sub_cancel_left,
    slice_full _ _ le_rfl]

/-- The layout of a request under version `v` with sequence number `q` and ciphertext `c`, field by field. `hdrOut v` is where the
ciphertext starts; the version header, empty under V3_3, ends 4 bytes before it. -/
structure RequestLayout (v : Version) (q : Word) (c f : Bytes) : Prop where
  length : f.length = hdrOut v + 8 + c.length
  prefix_field : slice f 0 4 = prefixBytes
  seq_field : slice f 4 8 = toBE32 q
  cmd_field : slice f 8 12 = toBE32 (cmdCode v)
  header_field : slice f 12 (hdrOut v - 4) = versionHeader v
  len_field : slice f (hdrOut v - 4) (hdrOut v) = toBE32 (BitVec.ofNat 32 (c.length + 8))
  payload : slice f (hdrOut v) (hdrOut v + c.length) = c
  body : slice f 0 (hdrOut v + c.length) = requestBody v q c
  crc_field : slice f (hdrOut v + c.length) (hdrOut v + 4 + c.length) = toBE32 (crc32 (requestBody v q c))
  suffix_field : slice f (hdrOut v + 4 + c.length) (hdrOut v + 8 + c.length) = suffixBytes

theorem requestBody_length (v : Version) (q : Word) (c : Bytes) : (requestBody v q c).length = hdrOut v + c.length := by
  simp only [requestBody, hdrOut, List.length_append, prefixBytes_length, toBE32_length]

/-- The frame is its fields one after another, so what ends with a field begins the frame. -/
theorem reqFrame_layout (v : Version) (q : Word) (c : Bytes) : RequestLayout v q c (reqFrame v q c) := by
  have body_length := requestBody_length v q c
  have header_end : hdrOut v = 12 + (versionHeader v).length + 4 := rfl
  have before {x y : Bytes} (h : x ++ y <+: reqFrame v q c) : x <+: reqFrame v q c := (List.prefix_append x y).trans h
  have through_suffix : requestBody v q c ++ toBE32 (crc32 (requestBody v q c)) ++ suffixBytes <+: reqFrame v q c :=
    List.prefix_rfl
  have through_crc := before through_suffix
  have through_payload := before through_crc
  have through_len := before through_payload
  have through_header := before through_len
  have through_cmd := before through_header
  have through_seq := before through_cmd
  have through_prefix := before through_seq
  constructor
  case length => rw [reqFrame_length]; omega
  case prefix_field => exact slice_field (x := []) through_prefix rfl rfl
  case seq_field => exact slice_field through_seq rfl rfl
  case cmd_field => exact slice_field through_cmd rfl rfl
  case header_field => exact slice_field through_header rfl (by omega)
  case len_field => exact slice_field through_len (by simp; omega) (by simp; omega)
  case payload => exact slice_field through_payload (by simp; omega) rfl
  case body => exact slice_field (x := []) through_payload rfl (by omega)
  case crc_field => exact slice_field through_crc body_length (by simp; omega)
  case suffix_field => exact slice_field through_suffix (by simp; omega) (by simp; omega)

/-- The ciphertext BUILD puts into its frame. -/
def State.ciphertext (s : State) : Bytes := ecbE s.key (pad s.input)

theorem State.ciphertext_length (s : State) : s.ciphertext.length = paddedLen s.inLen.toNat := by
  have padded : (pad s.input).length = paddedLen s.inLen.toNat := by rw [length_pad, State.input_length]
  rw [State.ciphertext, ecbE_length (by rw [padded]; exact paddedLen_mod _), padded]

/-- The state a BUILD with frame `f` and checksum `c` leaves. -/
def State.built (s : State) (f : Bytes) (c : Word) : State :=
  { s.storeOut f with crc := c, seq := s.seq + 1 }.complete

/-- BUILD writes its frame, CRC and SEQ, and nothing else but STATUS. -/
theorem State.built_spec (s : State) {f : Bytes} (c : Word) (h : f.length < 2 ^ 32) :
    Ended (s.built f c) .none ∧ (s.built f c).outIs f ∧ (s.built f c).crc = c ∧ (s.built f c).seq = s.seq + 1 ∧
      SameMemoryOutside s (s.built f c) outBase f.length ∧ SameSettings s (s.built f c) ∧ SameReceived s (s.built f c) ∧
      (s.built f c).fallback = s.fallback := by
  obtain ⟨out, memory⟩ := s.storeOut_spec f h
  exact ⟨State.complete_ended _, out, rfl, rfl, memory, by constructor <;> rfl, by constructor <;> rfl, rfl⟩

/-- BUILD takes CRC from the frame, where the field holds the checksum of what precedes it (43_frame_codec.md R201). -/
theorem exec_build {s : State} {v : Version} (hv : versionOf s.version = some v) (fits : s.inLenFits)
    (room : hdrOut v + 8 + paddedLen s.inLen.toNat ≤ s.bufSize) :
    exec .build s = .next (s.built (reqFrame v s.seq s.ciphertext) (crc32 (requestBody v s.seq s.ciphertext))) := by
  have crc := (reqFrame_layout v s.seq s.ciphertext).crc_field
  rw [s.ciphertext_length, Nat.add_right_comm] at crc
  simp only [exec, execBuild, hv]
  rw [if_neg (not_not.mpr fits), if_neg (by unfold trailerLen; omega), ← State.ciphertext, crc, be32_toBE32]
  rfl

/-- What BUILD leaves under any version, for an input and a frame that fit. -/
theorem build_writes_request {s : State} {v : Version} (hv : versionOf s.version = some v) (fits : s.inLenFits)
    (room : hdrOut v + 8 + paddedLen s.inLen.toNat ≤ s.bufSize) :
    ∃ t f, exec .build s = .next t ∧ RequestLayout v s.seq s.ciphertext f ∧ Ended t .none ∧ t.outIs f ∧
      t.crc = crc32 (requestBody v s.seq s.ciphertext) ∧ t.seq = s.seq + 1 ∧
      SameMemoryOutside s t outBase f.length ∧ SameSettings s t ∧ SameReceived s t ∧ t.fallback = s.fallback := by
  have layout := reqFrame_layout v s.seq s.ciphertext
  have short : (reqFrame v s.seq s.ciphertext).length < 2 ^ 32 := by
    have := s.bufSize_lt
    rw [layout.length, s.ciphertext_length]
    omega
  exact ⟨_, _, exec_build hv fits room, layout, s.built_spec _ short⟩

/-- Settles O17: the layout at V3_3, where the version header is empty. -/
theorem buildWritesTheV33RequestFrame : Obligations.BuildWritesTheV33RequestFrame := by
  intro s version fits room
  have hv : versionOf s.version = some .v33 := by rw [version]; rfl
  obtain ⟨t, f, step, layout, ended, out, crc, rest⟩ := build_writes_request hv fits room
  obtain ⟨length, hprefix, hseq, hcmd, -, hlen, payload, body, hcrc, hsuffix⟩ := layout
  rw [s.ciphertext_length] at length hlen payload body hcrc hsuffix
  rw [← body] at crc hcrc
  exact ⟨t, f, step, ended, out, length, hprefix, hseq, hcmd, hlen, payload, hcrc, hsuffix, crc, rest⟩

/-- Settles O18: the layout at V3_4 and at V3_5, whose version headers differ in the minor number's character. -/
theorem buildWritesTheV34AndV35RequestFrame : Obligations.BuildWritesTheV34AndV35RequestFrame := by
  intro s minor which fits room
  have named : ∃ v, versionOf s.version = some v ∧ hdrOut v = 32 ∧ cmdCode v = 0x10 ∧
      versionHeader v = [0x33, 0x2E, minor, 0x00] ++ List.replicate 12 0x00 := by
    rcases which with ⟨version, rfl⟩ | ⟨version, rfl⟩ <;> rw [version]
    · exact ⟨.v34, rfl, rfl, rfl, rfl⟩
    · exact ⟨.v35, rfl, rfl, rfl, rfl⟩
  obtain ⟨v, hv, start, code, header⟩ := named
  obtain ⟨t, f, step, layout, ended, out, crc, rest⟩ := build_writes_request hv fits (by rw [start]; exact room)
  obtain ⟨length, hprefix, hseq, hcmd, hheader, hlen, payload, body, hcrc, hsuffix⟩ := layout
  rw [s.ciphertext_length] at length hlen payload body hcrc hsuffix
  rw [← body] at crc hcrc
  rw [start] at length hheader hlen payload hcrc hsuffix crc
  rw [code] at hcmd
  rw [header] at hheader
  exact ⟨t, f, step, ended, out, length, hprefix, hseq, hcmd, hheader, hlen, payload, hcrc, hsuffix, crc, rest⟩

end Sys2Proof.Machine
end

