-- ==== Sys2Proof/Proofs/CommandEffects.lean ====
section
/-! PROOFS. What each command writes (30_encoding.md R96), read off the ways a command can end. -/

namespace Sys2Proof.Machine

open Sys2Proof

/-- Settles O30: an error and a NOP change only STATUS; CRC32 adds CRC; the other completions write OUT and their own registers. -/
theorem commandsWriteOnlyTheirResults : Obligations.CommandsWriteOnlyTheirResults := by
  intro i s t ht
  have stored {bs : Bytes} (h : bs.length < 2 ^ 32) :
      SameMemoryOutside s (s.storeOut bs) outBase (s.storeOut bs).outLen.toNat := by
    obtain ⟨⟨outLen, -⟩, memory⟩ := s.storeOut_spec bs h
    rwa [outLen]
  have size := s.bufSize_lt
  rcases exec_cases i s with ⟨c, -, e⟩ | ⟨-, e⟩ | ⟨rfl, e⟩ | ⟨hi, bs, hbs, e⟩ | ⟨rfl, bs, c, hbs, e⟩ |
      ⟨rfl, r, bs, fb, hbs, -, e⟩ <;>
    obtain rfl := Host.Outcome.next.inj (e.symm.trans ht)
  · obtain ⟨settings, received, outLen, seq, crc, fallback, memory⟩ := s.raise_onlyStatus c
    exact ⟨settings, fun x _ => memory x, fun _ => ⟨received, fallback⟩, fun _ => seq, fun _ _ => crc,
      fun _ => ⟨outLen, memory⟩⟩
  · obtain ⟨settings, received, outLen, seq, crc, fallback, memory⟩ := s.complete_onlyStatus
    exact ⟨settings, fun x _ => memory x, fun _ => ⟨received, fallback⟩, fun _ => seq, fun _ _ => crc,
      fun _ => ⟨outLen, memory⟩⟩
  · exact ⟨by constructor <;> rfl, fun _ _ => rfl, fun _ => ⟨by constructor <;> rfl, rfl⟩, fun _ => rfl,
      fun _ h => absurd rfl h, fun _ => ⟨rfl, fun _ => rfl⟩⟩
  · exact ⟨by constructor <;> rfl, stored (by omega), fun _ => ⟨by constructor <;> rfl, rfl⟩, fun _ => rfl, fun _ _ => rfl,
      fun h => by rcases hi with rfl | rfl <;> simp at h⟩
  · exact ⟨by constructor <;> rfl, stored (by omega), fun _ => ⟨by constructor <;> rfl, rfl⟩, fun h => absurd rfl h,
      fun h => absurd rfl h, fun h => by simp at h⟩
  · exact ⟨by constructor <;> rfl, stored (by omega), fun h => absurd rfl h, fun _ => rfl, fun _ _ => rfl,
      fun h => by simp at h⟩

end Sys2Proof.Machine
end

