-- ==== Sys2Proof/Proofs/HostPrograms.lean ====
section
/-! PROOFS. The host programs SETKEY, LOADIN and RUN (30_encoding.md R105). The first two are rows of idle writes, so one lemma runs
such a row, and each program needs to say only what its row's next write stores. RUN waits on its POLL until the delay has run
out. -/

namespace Sys2Proof.Machine

open Sys2Proof

/-! ## A row of idle writes -/

/-- A row of `n` writes takes an idle block through the states `S 0` to `S n`, when each write stores what leads to the next,
whatever inputs are still to come. -/
theorem run_idle_writes {S : Nat → State} {w : Width} {off : Nat → Nat} {data : Nat → Word} {n : Nat} {rest : List Input}
    (inputs : (S 0).inputs = ((List.range n).map fun i => .access (.write w (off i) (data i))) ++ rest)
    (idle : ∀ i, (S i).pend = none) (window : ∀ i, i < n → off i < 0x3000)
    (stores : ∀ i, i < n → ∀ r,
      ({ S i with inputs := r } : State).storeData w (off i) (data i) = { S (i + 1) with inputs := r }) :
    Host.Core.run Sys2Proof.core n (S 0) = .next ({ S n with inputs := rest } : State) := by
  induction n generalizing rest with
  | zero => rw [← show (S 0).inputs = rest from inputs]; rfl
  | succ n ih =>
    rw [List.range_succ, List.map_append, List.append_assoc] at inputs
    have first := ih inputs (fun i hi => window i (by omega)) fun i hi => stores i (by omega)
    have last := step_write_idle (s := { S n with inputs := .access (.write w (off n) (data n)) :: rest }) (idle n) rfl
      (window n (by omega))
    rw [show ({ S n with inputs := rest } : State).storeData w (off n) (data n) = _ from stores n (by omega) rest] at last
    exact (run_add 1 first).trans (run_next last)

/-- The lanes of the word of a string of at most four bytes are its bytes (20_memory.md R67). -/
theorem laneOf_leWord (bs : Bytes) {j : Nat} (h : j < bs.length) (h4 : bs.length ≤ 4) : laneOf (leWord bs) j = bs[j] := by
  rw [laneOf, leWord_lane bs j (by omega), dif_pos h]

/-! ## SETKEY -/

/-- The key store `old` after the first `n` bytes of `new` have been loaded. -/
def keyPrefix (old new : Key) (n : Nat) : Key := Vector.ofFn fun j : Fin 16 => if j.val < n then new[j] else old[j]

theorem keyPrefix_getElem (old new : Key) (n : Nat) {j : Nat} (h : j < 16) :
    (keyPrefix old new n)[j] = if j < n then new[j] else old[j] := Vector.getElem_ofFn h

theorem keyPrefix_zero (old new : Key) : keyPrefix old new 0 = old :=
  Vector.ext fun _ h => keyPrefix_getElem old new 0 h

theorem keyPrefix_all (old new : Key) : keyPrefix old new 16 = new :=
  Vector.ext fun _ h => (keyPrefix_getElem old new 16 h).trans (if_pos h)

/-- The write of a key's word `i` loads four bytes more. -/
theorem State.storeData_key_word (s : State) (old new : Key) {i : Nat} (h : i < 4) :
    ({ s with key := keyPrefix old new (4 * i) } : State).storeData .w32 (0x040 + 4 * i)
      (leWord (slice new.toList (4 * i) (4 * i + 4))) = { s with key := keyPrefix old new (4 * (i + 1)) } := by
  obtain ⟨k, stored, bytes⟩ := State.writeLanes_key { s with key := keyPrefix old new (4 * i) } (0x040 + 4 * i)
    (leWord (slice new.toList (4 * i) (4 * i + 4))) 4 (by omega) (by omega)
  have word_length : (slice new.toList (4 * i) (4 * i + 4)).length = 4 := by simp; omega
  have loaded : k = keyPrefix old new (4 * (i + 1)) := by
    refine Vector.ext fun j hj => (bytes ⟨j, hj⟩).trans ?_
    rw [keyPrefix_getElem _ _ _ hj]
    by_cases here : 4 * i ≤ j ∧ j < 4 * (i + 1)
    · rw [if_pos (by simp only; omega), if_pos here.2, laneOf_leWord _ (by simp only; omega) (by omega)]
      simp only [slice, List.getElem_take, List.getElem_drop, Vector.getElem_toList]
      congr 1
      omega
    · rw [if_neg (by simp only; omega)]
      refine (keyPrefix_getElem _ _ _ hj).trans (if_congr (by omega) rfl rfl)
  rw [State.storeData_lanes _ _ _ _ (by omega) (by simp only [Width.bytes]; omega), ← loaded]
  exact stored

/-- Settles O51: four writes, each of which loads four bytes more of the key. -/
theorem setKeyLoadsTheKey : Obligations.SetKeyLoadsTheKey := by
  intro s k rest hp hi
  have run := run_idle_writes (S := fun i => { s with key := keyPrefix s.key k (4 * i) }) (n := 4) (rest := rest) hi
    (fun _ => hp) (fun i h => by omega) fun i h r => State.storeData_key_word { s with inputs := r } s.key k h
  rw [Nat.mul_zero, keyPrefix_zero, keyPrefix_all] at run
  exact run

/-! ## LOADIN -/

/-- Writing a string is writing its first part and then the rest behind it. -/
theorem Memory.writeBytes_append (m : Memory) (a : Nat) (bs cs : Bytes) :
    m.writeBytes a (bs ++ cs) = (m.writeBytes a bs).writeBytes (a + bs.length) cs := by
  induction bs generalizing m a with
  | nil => rfl
  | cons b bs ih =>
    rw [List.cons_append, Memory.writeBytes_cons, ih, Memory.writeBytes_cons, List.length_cons, Nat.add_assoc, Nat.add_comm 1]

/-- After a string write, each byte is the string's where the string lies, and as before elsewhere. -/
theorem Memory.read_writeBytes (m : Memory) (a : Nat) (bs : Bytes) (x : Nat) :
    (m.writeBytes a bs).read x = if h : a ≤ x ∧ x < a + bs.length then some (bs[x - a]'(by omega)) else m.read x := by
  split_ifs with h
  · have inside := Memory.read_writeBytes_inside m a bs (x - a) (by omega)
    rwa [Nat.add_sub_cancel' h.1] at inside
  · exact Memory.read_writeBytes_outside m a bs x h

/-- Lane by lane, a string of bytes of IN is written from its first byte up. -/
theorem State.writeLanes_string (s : State) (off : Nat) (data : Word) (bs : Bytes) (h1 : 0x1000 ≤ off)
    (h2 : off + bs.length ≤ 0x1000 + s.bufSize) (lanes : ∀ (j : Nat) (h : j < bs.length), laneOf data j = bs[j]) :
    (List.range bs.length).foldl (fun t j => t.writeLane (off + j) (laneOf data j)) s =
      { s with mem := s.mem.writeBytes off bs } := by
  induction bs using List.reverseRecOn with
  | nil => rfl
  | append_singleton bs b ih =>
    have len : (bs ++ [b]).length = bs.length + 1 := by simp
    have first := ih (by omega) fun j h => (lanes j (by omega)).trans (List.getElem_append_left h)
    have last : laneOf data bs.length = b := (lanes bs.length (by omega)).trans (List.getElem_concat_length rfl _)
    rw [len, List.range_succ, List.foldl_append, first, Memory.writeBytes_append, ← last]
    have inside : off + bs.length < 0x1000 + s.bufSize := by omega
    exact State.writeLane_in _ _ (by omega) inside

/-- An aligned write of a string that lies in IN stores the string. -/
theorem State.storeData_string (s : State) {w : Width} {off : Nat} {bs : Bytes} (len : bs.length = w.bytes)
    (ha : off % w.bytes = 0) (h1 : 0x1000 ≤ off) (h2 : off + bs.length ≤ 0x1000 + s.bufSize) :
    s.storeData w off (leWord bs) = { s with mem := s.mem.writeBytes off bs } := by
  obtain ⟨-, width⟩ := width_bytes_bounds w
  rw [s.storeData_lanes w off _ (by omega) ha, ← len]
  exact s.writeLanes_string off _ bs h1 h2 fun j h => laneOf_leWord bs h (by omega)

/-- `s` after the first `n` bytes of a string have been loaded into IN. -/
def State.loaded (s : State) (bs : Bytes) (n : Nat) : State := { s with mem := s.mem.writeBytes inBase (bs.take n) }

/-- The write of the bytes at `n`, a word or a single byte, extends the loaded part. -/
theorem State.storeData_loaded (s : State) {w : Width} {bs : Bytes} {n : Nat} (ha : n % w.bytes = 0)
    (h : n + w.bytes ≤ bs.length) (fits : bs.length ≤ s.bufSize) :
    (s.loaded bs n).storeData w (inBase + n) (leWord (slice bs n (n + w.bytes))) = s.loaded bs (n + w.bytes) := by
  have len : (slice bs n (n + w.bytes)).length = w.bytes := by rw [slice_length]; omega
  have aligned : (inBase + n) % w.bytes = 0 := by cases w <;> simp only [Width.bytes, inBase] at ha ⊢ <;> omega
  have size : (s.loaded bs n).bufSize = s.bufSize := rfl
  rw [State.storeData_string _ len aligned (by simp only [inBase]; omega) (by simp only [inBase, size, len]; omega)]
  unfold State.loaded
  rw [List.take_add, Memory.writeBytes_append, List.length_take_of_le (by omega), slice, Nat.add_sub_cancel_left]

/-- The word of a string's single byte. -/
theorem leWord_slice_one (bs : Bytes) {n : Nat} (h : n < bs.length) :
    leWord (slice bs n (n + 1)) = (bs.getD n 0).setWidth 32 := by
  have one : slice bs n (n + 1) = [bs[n]] := by
    rw [slice, Nat.add_sub_cancel_left, List.drop_eq_getElem_cons h]
    rfl
  rw [one, List.getD_eq_getElem _ _ h, leWord, leWord]
  simp

/-- LOADIN's row of `n` whole words. -/
theorem run_load_words {s : State} {bs : Bytes} {n : Nat} {rest : List Input} (hp : s.pend = none) (hb : s.bufSize ≤ 4096)
    (fits : bs.length ≤ s.bufSize) (hn : 4 * n ≤ bs.length)
    (hi : s.inputs = ((List.range n).map fun i => wr32 (inBase + 4 * i) (leWord (slice bs (4 * i) (4 * i + 4)))) ++ rest) :
    Host.Core.run Sys2Proof.core n s = .next ({ s.loaded bs (4 * n) with inputs := rest } : State) :=
  run_idle_writes (S := fun i => s.loaded bs (4 * i)) hi (fun _ => hp) (fun i h => by simp only [inBase]; omega)
    fun i h r => State.storeData_loaded { s with inputs := r } (w := .w32) (by simp [Width.bytes])
      (by simp only [Width.bytes]; omega) fits

/-- LOADIN's row of `n` bytes behind the first `m`. -/
theorem run_load_bytes {s : State} {bs : Bytes} {m n : Nat} (rest : List Input) (hp : s.pend = none) (hb : s.bufSize ≤ 4096)
    (fits : bs.length ≤ s.bufSize) (hn : m + n ≤ bs.length) :
    Host.Core.run Sys2Proof.core n ({ s.loaded bs m with
        inputs := ((List.range n).map fun j => wr8 (inBase + m + j) ((bs.getD (m + j) 0).setWidth 32)) ++ rest } : State) =
      .next ({ s.loaded bs (m + n) with inputs := rest } : State) := by
  refine run_idle_writes (S := fun j => { s.loaded bs (m + j) with inputs := _ }) rfl (fun _ => hp)
    (fun i h => by simp only [inBase]; omega) fun i h r => ?_
  rw [← leWord_slice_one bs (by omega), Nat.add_assoc inBase]
  exact State.storeData_loaded { s with inputs := r } (w := .w8) (Nat.mod_one _) (by simp only [Width.bytes]; omega) fits

/-- Settles O52: a row of words, a row of bytes, then IN_LEN. -/
theorem loadInLoadsTheString : Obligations.LoadInLoadsTheString := by
  intro s bs rest hp hb fits hi
  have len : (hostLoadIn bs).length = bs.length / 4 + bs.length % 4 + 1 := by simp [hostLoadIn, Nat.add_assoc]
  have whole : 4 * (bs.length / 4) + bs.length % 4 = bs.length := Nat.div_add_mod ..
  rw [hostLoadIn, List.append_assoc, List.append_assoc] at hi
  have words := run_load_words hp hb fits (by omega) hi
  have bytes := run_load_bytes ([wr32 0x00C (BitVec.ofNat 32 bs.length)] ++ rest) hp hb fits whole.le
  have last := step_write_idle (s := { s.loaded bs bs.length with inputs := wr32 0x00C (BitVec.ofNat 32 bs.length) :: rest })
    hp rfl (by decide)
  rw [whole] at bytes
  refine ⟨s.mem.writeBytes inBase (bs.take bs.length), ?_, fun x => ?_⟩
  · rw [len]
    exact (run_add 1 ((run_add _ words).trans bytes)).trans (run_next last)
  · rw [List.take_length, Memory.read_writeBytes]

/-! ## RUN -/

/-- What RUN's POLL waits for: bit 0 is 0 and bit 1 is 1. -/
theorem and_run_mask (v : Word) : v &&& 0x00000003 = 0x00000002 ↔ v.getLsbD 0 = false ∧ v.getLsbD 1 = true := by
  constructor
  · intro h
    have bit (i : Nat) : (v.getLsbD i && (0x00000003 : Word).getLsbD i) = (0x00000002 : Word).getLsbD i := by
      rw [← BitVec.getLsbD_and, h]
    exact ⟨by simpa using bit 0, by simpa using bit 1⟩
  · rintro ⟨h0, h1⟩
    have above : ∀ i, i < 30 →
        (0x00000003 : Word).getLsbD (i + 2) = false ∧ (0x00000002 : Word).getLsbD (i + 2) = false := by decide
    refine BitVec.eq_of_getLsbD_eq fun i hi => ?_
    rw [BitVec.getLsbD_and]
    match i with
    | 0 => rw [h0]; rfl
    | 1 => rw [h1]; rfl
    | i + 2 => rw [(above i (by omega)).1, (above i (by omega)).2, Bool.and_false]

/-- A read of STATUS shows RUN's POLL that the command has ended, and nothing else does. -/
theorem State.readData_run_mask (s : State) :
    s.readData .w32 0x008 &&& 0x00000003 = 0x00000002 ↔ s.pend = none ∧ s.done = true := by
  rw [s.readData_status, and_run_mask, s.statusWord_busy, s.statusWord_done]
  simp [State.busy]

/-- A POLL whose mask matches is over. -/
theorem State.serve_poll_match {s : State} {off : Nat} {mask value : Word} (ho : off < 0x3000)
    (h : s.readData .w32 off &&& mask = value) : s.serve (.poll off mask value) = .next (s.hostRead .w32 off) := by
  rw [State.serve, State.pollOnce, if_pos (show off < windowSize from ho), if_pos h]

/-- A POLL whose mask does not match comes again. -/
theorem State.serve_poll_again {s : State} {off : Nat} {mask value : Word} (ho : off < 0x3000)
    (h : s.readData .w32 off &&& mask ≠ value) :
    s.serve (.poll off mask value) = .next { s.hostRead .w32 off with inputs := .poll off mask value :: s.inputs } := by
  rw [State.serve, State.pollOnce, if_pos (show off < windowSize from ho), if_neg h]

/-- While the command waits, the POLL reads STATUS without DONE and comes again, until the delay has run out. -/
theorem run_poll_waiting {s : State} {w : Word} {rest : List Input} (hp : s.pend = some w) (hd : s.done = false)
    (hi : s.inputs = .poll 0x008 0x00000003 0x00000002 :: rest) :
    ∃ t : State, Host.Core.run Sys2Proof.core s.delay s = .next t ∧ t.pend = some w ∧ t.delay = 0 ∧ t.inputs = s.inputs := by
  generalize hn : s.delay = n
  induction n generalizing s with
  | zero => exact ⟨s, rfl, hp, hn, rfl⟩
  | succ n ih =>
    have unseen : ({ s with delay := n, inputs := rest } : State).readData .w32 0x008 &&& 0x00000003 ≠ 0x00000002 :=
      fun seen => by
        obtain ⟨idle, -⟩ := (State.readData_run_mask _).mp seen
        cases hp.symm.trans idle
    obtain ⟨again, turn, pend, done, delay, inputs⟩ : ∃ u, step s = .next u ∧ u.pend = some w ∧ u.done = false ∧
        u.delay = n ∧ u.inputs = .poll 0x008 0x00000003 0x00000002 :: rest :=
      ⟨_, (step_waiting hp hn hi).trans (State.serve_poll_again (by decide) unseen), hp, hd, rfl, rfl⟩
    obtain ⟨t, run, pend, delay, waiting⟩ := ih pend done inputs delay
    exact ⟨t, (run_next turn).trans run, pend, delay, waiting.trans (inputs.trans hi.symm)⟩

/-- Settles O53: the acceptance, the waiting, the engine's step, and the POLL that sees its end. -/
theorem runComesToItsEnd : Obligations.RunComesToItsEnd := by
  intro s i rest hp hi
  obtain ⟨a, accepted, pending, undone, queue⟩ : ∃ a, step s = .next a ∧ a.pend = some (encode i) ∧ a.done = false ∧
      a.inputs = .poll 0x008 0x00000003 0x00000002 :: rest := ⟨_, step_write_idle hp hi (by decide), rfl, rfl, rfl⟩
  obtain ⟨t, waited, pend, delay, inputs⟩ := run_poll_waiting pending undone queue
  obtain ⟨u, taken, idle, done, kept, -⟩ := engineStep_next (encode i) t
  rw [← step_engine pend delay] at taken
  have seen : step u = .next (({ u with inputs := rest } : State).hostRead .w32 0x008) :=
    (step_idle idle (kept.trans (inputs.trans queue))).trans
      (State.serve_poll_match (by decide) ((State.readData_run_mask _).mpr ⟨idle, done⟩))
  refine ⟨a.delay + 2 + 1, ({ u with inputs := rest } : State).hostRead .w32 0x008, ?_, idle, done, rfl⟩
  calc Host.Core.run Sys2Proof.core (a.delay + 2 + 1) s
      = Host.Core.run Sys2Proof.core (a.delay + 2) a := run_next accepted
    _ = Host.Core.run Sys2Proof.core 2 t := run_add 2 waited
    _ = Host.Core.run Sys2Proof.core 1 u := run_next taken
    _ = .next (({ u with inputs := rest } : State).hostRead .w32 0x008) := run_next seen

end Sys2Proof.Machine
end

