-- ==== Sys2Proof/Proofs/BusyAccesses.lean ====
section
/-! PROOFS. The host's accesses while a command is pending (40_command_lifecycle.md R137 to R139), and the CMD write that makes one
pending (R130): a busy write is stopped everywhere but at STATUS, and a busy read sees the settings and IN alone. -/

namespace Sys2Proof.Machine

open Sys2Proof

section

variable (s : State)

theorem State.busy_of_pend_ne (hp : s.pend ≠ none) : s.busy = true := Option.isSome_iff_ne_none.mpr hp

/-! ## Writes -/

/-- A busy write off STATUS sets WERR and is lost (40_command_lifecycle.md R137). -/
theorem State.hostAccess_write_busy (w : Width) {off : Nat} (data : Word) (hp : s.pend ≠ none) (h : off < 0x3000)
    (ho : off ≠ 0x008) : s.hostAccess (.write w off data) = .next { s with werr := true } := by
  rw [State.hostAccess, if_pos (show off < windowSize from h), State.hostWrite, if_pos ⟨s.busy_of_pend_ne hp, ho⟩]

/-- A narrow write of STATUS is no register write (20_memory.md R64), nor is it stopped by the busy rule (log 9). -/
theorem State.hostAccess_write_status_narrow {w : Width} (data : Word) (hw : w ≠ .w32) :
    s.hostAccess (.write w 0x008 data) = .next s := by
  have obeyed : ¬(s.busy = true ∧ 0x008 ≠ statusOffset) := fun ⟨_, ho⟩ => ho rfl
  rw [State.hostAccess, if_pos (by decide), State.hostWrite, if_neg obeyed, s.storeData_register w 0x008 data (by decide),
    if_neg fun ⟨hw', _⟩ => hw hw']

end

/-- Settles O32: the idle write is `accept`; a busy one is stopped; another width or alignment is no register access. -/
theorem aCmdWriteIsAcceptedWhileIdle : Obligations.ACmdWriteIsAcceptedWhileIdle := by
  refine ⟨fun s w hp => ?_, fun s w off data h1 h2 => ⟨fun hp => ?_, fun hp wrong => ?_⟩⟩
  · exact ⟨s.accept w, s.hostAccess_write_register w hp (by decide) (by decide), rfl, rfl, rfl, rfl, rfl, rfl, rfl, rfl, rfl,
      rfl, rfl, rfl, ⟨by constructor <;> rfl, rfl, rfl, rfl⟩, fun _ => rfl⟩
  · exact s.hostAccess_write_busy w data hp (by omega) (by omega)
  · obtain ⟨-, ignored⟩ := registersTakeAlignedWordsOnly s w off data hp (by omega) (wrong.imp id fun _ => by omega)
    exact ignored

/-- Settles O33: off STATUS the busy rule stops the write, and at STATUS the width does. -/
theorem aBusyWriteOnlySetsWerr : Obligations.ABusyWriteOnlySetsWerr :=
  fun s w _ data hp => ⟨s.hostAccess_write_busy w data hp, s.hostAccess_write_status_narrow data⟩

/-- Settles O34: the write is `writeStatus`, busy or not, and each flag it clears is one bit's test. -/
theorem aStatusWriteClearsDoneAndWerrAtAnyTime : Obligations.AStatusWriteClearsDoneAndWerrAtAnyTime := by
  intro s v
  have cleared (flag bit : Bool) : (flag && !bit) = if bit = true then false else flag := by cases bit <;> simp
  rw [s.hostAccess_write_status, State.writeStatus, cleared, cleared]

/-! ## Reads -/

/-- A register read of another width or alignment answers 0, busy or not (20_memory.md R64; log 8). -/
theorem State.readData_no_register_word (s : State) {w : Width} {off : Nat} (h : off < 0x34) (wrong : w ≠ .w32 ∨ off % 4 ≠ 0) :
    s.readData w off = 0 := by
  rw [s.readData_register w off h, if_neg fun ⟨hw, ha⟩ => wrong.elim (· hw) (· ha)]

/-- Settles O49: these registers are read past the busy rule, and width and alignment are tested before any register or lane. -/
theorem busyReadsOfTheSettingsAreTrue : Obligations.BusyReadsOfTheSettingsAreTrue := by
  intro s _
  have reg {off : Nat} (h : off < 0x34) (ha : off % 4 = 0) := s.readData_word_register h ha
  refine ⟨⟨reg ?_ ?_, reg ?_ ?_, reg ?_ ?_, reg ?_ ?_, reg ?_ ?_⟩,
    fun w off => ⟨s.readData_no_register_word, s.readData_misaligned w off⟩⟩ <;> decide

/-- Two states that agree on all that a read can see while a command is pending: STATUS's stored fields, the settings, IN, and the
event number that fixes the draws. -/
structure State.SameBusyView (s u : State) : Prop where
  draws : u.draws = s.draws
  version : u.version = s.version
  ie : u.ie = s.ie
  done : u.done = s.done
  fallback : u.fallback = s.fallback
  werr : u.werr = s.werr
  err : u.err = s.err
  inLen : u.inLen = s.inLen
  param : u.param = s.param
  inBuf : ∀ x, inBase ≤ x → x < inBase + s.bufSize → u.mem.read x = s.mem.read x

section

variable {s u : State} (hs : s.busy = true) (hu : u.busy = true) (h : s.SameBusyView u)

include hs in
/-- A busy read of a result register is a draw, whatever it holds (40_command_lifecycle.md R138). -/
theorem State.resultReg_busy (off : Nat) (v : Word) : s.resultReg off v = s.drawWord off := if_pos hs

include hs hu h

/-- No register's busy read depends on more than the view. -/
theorem State.SameBusyView.readRegister (off : Nat) : u.readRegister off = s.readRegister off := by
  have ctrl : u.ctrlWord = s.ctrlWord := by rw [State.ctrlWord, State.ctrlWord, h.version, h.ie]
  have status : u.statusWord = s.statusWord := by
    rw [State.statusWord, State.statusWord, h.err, h.werr, h.fallback, h.done, hs, hu]
  have result (r : Nat) (v : Word) : u.resultReg r v = s.drawWord r := by
    rw [State.resultReg_busy hu, State.drawWord, State.drawWord, h.draws]
  simp only [State.readRegister, ctrl, status, result, State.resultReg_busy hs, h.inLen, h.param]

/-- No lane's busy read does: IN is in the view, and a lane of OUT is a draw. -/
theorem State.SameBusyView.readLane (a : Nat) : u.readLane a = s.readLane a := by
  have size : u.bufSize = s.bufSize := congrArg BitVec.toNat h.param
  unfold State.readLane
  rw [size]
  cases region : regionOf s.bufSize a with
  | register | key | unmapped => rfl
  | inBuf =>
    obtain ⟨low, high⟩ := inBuf_of_regionOf region
    simp only [State.readByte, h.inBuf a low high, h.draws]
  | outBuf => simp only [hs, hu, if_true, h.draws]

theorem State.SameBusyView.readData (w : Width) (off : Nat) : u.readData w off = s.readData w off := by
  unfold State.readData
  simp only [h.readRegister hs hu, h.readLane hs hu]

end

/-- Settles O48: every register and every lane is read through the view. -/
theorem busyReadsDoNotDependOnTheResults : Obligations.BusyReadsDoNotDependOnTheResults := by
  intro s u w off hs hu draws version ie done fallback werr err inLen param inBuf
  have view : s.SameBusyView u := ⟨draws, version, ie, done, fallback, werr, err, inLen, param, inBuf⟩
  exact view.readData (s.busy_of_pend_ne hs) (u.busy_of_pend_ne hu) w off

end Sys2Proof.Machine
end

