-- ==== Sys2Proof/Proofs/PendingCommands.lean ====
section
/-! PROOFS. From acceptance to the engine's step (40_command_lifecycle.md R131, R137): whose turn a step is, what the turns of the
host and the platform leave of a pending command's inputs, and that its own turn comes. -/

namespace Sys2Proof.Machine

open Sys2Proof

/-! ## Whose turn a step is -/

/-- The engine's step on a word that is a command (40_command_lifecycle.md R132). -/
theorem engineStep_command {w : Word} {i : Instr} (h : decode w = .ok i) (s : State) : engineStep w s = exec i s := by
  simp only [engineStep, h]

/-- Before its delay has run out, a pending command leaves the turn to the outside. -/
theorem step_before_delay {s : State} {w : Word} {n : Nat} (hp : s.pend = some w) (hd : s.delay = n + 1) :
    step s = ({ s with delay := n } : State).outsideTurn := by
  simp only [step, advance, hp, hd]

/-- Settles O4: the step is the engine's, whose word is a command. -/
theorem stepRunsThePendingCommand : Obligations.StepRunsThePendingCommand := by
  intro s w i hp hd hw
  rw [step_engine hp hd, engineStep_command hw]

/-- Settles O5: with a word pending the delay decides whose turn it is, and with none there is only the outside. -/
theorem theOutsideMovesUntilTheDelayRunsOut : Obligations.TheOutsideMovesUntilTheDelayRunsOut :=
  ⟨fun _ _ _ => step_before_delay, fun s hp => by simp only [step, advance, hp]⟩

/-- Settles O6: NOP is the successful ending and nothing before it. -/
theorem nopRunsTheHandshakeAlone : Obligations.NopRunsTheHandshakeAlone :=
  fun s => ⟨s.complete, rfl, s.complete_ended, s.complete_onlyStatus⟩

/-! ## The outside's turn while a command is pending -/

/-- The pending word, what the command will read, and its delay are as they were, and no new input has come. -/
structure State.KeepsPending (s t : State) : Prop where
  pend : t.pend = s.pend
  delay : t.delay = s.delay
  version : t.version = s.version
  ie : t.ie = s.ie
  inLen : t.inLen = s.inLen
  seq : t.seq = s.seq
  key : t.key = s.key
  mem : t.mem = s.mem
  inputs : t.inputs ⊆ s.inputs

/-- Taking the oldest input off the list. -/
theorem State.keepsPending_take {s : State} {i : Input} {rest : List Input} (hi : s.inputs = i :: rest) :
    s.KeepsPending { s with inputs := rest } :=
  ⟨rfl, rfl, rfl, rfl, rfl, rfl, rfl, rfl, hi ▸ List.subset_cons_self i rest⟩

section

variable {s t u : State}

theorem State.KeepsPending.trans (h : s.KeepsPending t) (h' : t.KeepsPending u) : s.KeepsPending u :=
  ⟨h'.pend.trans h.pend, h'.delay.trans h.delay, h'.version.trans h.version, h'.ie.trans h.ie, h'.inLen.trans h.inLen,
    h'.seq.trans h.seq, h'.key.trans h.key, h'.mem.trans h.mem, List.Subset.trans h'.inputs h.inputs⟩

/-- DONE, WERR, the answer of a read and the event number are none of these. -/
theorem State.keepsPending_flags (s : State) (done werr : Bool) (rdata : Option Word) (draws : Nat) :
    s.KeepsPending { s with done := done, werr := werr, rdata := rdata, draws := draws } :=
  ⟨rfl, rfl, rfl, rfl, rfl, rfl, rfl, rfl, List.Subset.refl _⟩

/-- A busy write changes at most DONE and WERR (40_command_lifecycle.md R137, R139). -/
theorem State.keepsPending_hostWrite (s : State) (hb : s.busy = true) (w : Width) (off : Nat) (data : Word) :
    s.KeepsPending (s.hostWrite w off data) := by
  rcases State.hostWrite_cases s w off data with ⟨-, e⟩ | ⟨idle, -⟩
  · rcases e with e | e | e <;> rw [e] <;> exact s.keepsPending_flags _ _ _ _
  · exact absurd (hb.symm.trans idle) (by decide)

/-- Of all that the outside can do, only a reset touches a pending command. -/
theorem State.keepsPending_outsideTurn (hb : s.busy = true) (hr : s.NoResetComing) (ht : s.outsideTurn = .next t) :
    s.KeepsPending t := by
  have busy (rest : List Input) : ({ s with inputs := rest } : State).busy = true := hb
  rcases State.outsideTurn_next ht with ⟨-, rfl⟩ | ⟨i, rest, w, off, hi, -, rfl⟩ | ⟨i, rest, w, off, data, hi, -, rfl⟩ |
    ⟨rest, off, mask, value, -, -, rfl⟩ | ⟨rest, hi, -⟩
  · exact State.keepsPending_flags _ _ _ _ _
  · exact (State.keepsPending_take hi).trans (State.keepsPending_flags _ _ _ _ _)
  · exact (State.keepsPending_take hi).trans (State.keepsPending_hostWrite _ (busy rest) w off data)
  · exact s.keepsPending_flags _ _ _ _
  · exact absurd (hi ▸ List.mem_cons_self) hr

/-- A step before the delay has run out takes one turn from it and is then the outside's. -/
theorem State.keepsPending_step {w : Word} {n : Nat} (hp : s.pend = some w) (hd : s.delay = n + 1) (hr : s.NoResetComing)
    (ht : step s = .next t) : ({ s with delay := n } : State).KeepsPending t :=
  State.keepsPending_outsideTurn (by simp [State.busy, hp]) hr ((step_before_delay hp hd).symm.trans ht)

end

/-- Settles O55: the state with one turn less is kept. -/
theorem aPendingCommandsInputsAreFrozen : Obligations.APendingCommandsInputsAreFrozen := by
  intro s t w n hp hd hr ht
  obtain ⟨pend, delay, version, ie, inLen, seq, key, mem, inputs⟩ := State.keepsPending_step hp hd hr ht
  exact ⟨pend.trans hp, delay, version, ie, inLen, seq, key, fun x => congrArg (Memory.read · x) mem, fun h => hr (inputs h)⟩

/-! ## The command's own turn comes -/

/-- With its inputs inside the window the outside's turn does not stop the block. -/
theorem State.outsideTurn_in_window {s : State} (hw : s.InputsInWindow) : ∃ t, s.outsideTurn = .next t := by
  unfold State.outsideTurn
  split
  · exact ⟨s, rfl⟩
  · next i rest hi =>
    obtain ⟨t, ht, -⟩ := State.serve_next { s with inputs := rest } (hw i (hi ▸ List.mem_cons_self))
    exact ⟨t, ht⟩

/-- Settles O54, by induction on the delay: with turns left a step takes one and keeps the command waiting; with none it is the
engine's. -/
theorem aPendingCommandIsEventuallyTaken : Obligations.APendingCommandIsEventuallyTaken := by
  intro s w hp hw hr
  generalize hd : s.delay = n
  induction n generalizing s with
  | zero =>
    obtain ⟨t, taken, idle, done, -⟩ := engineStep_next w s
    exact ⟨t, run_next ((step_engine hp hd).trans taken), idle, done⟩
  | succ n ih =>
    obtain ⟨t, turn⟩ := State.outsideTurn_in_window (s := { s with delay := n }) hw
    have taken : step s = .next t := (step_before_delay hp hd).trans turn
    have kept := State.keepsPending_step hp hd hr taken
    obtain ⟨u, run, ended⟩ := ih t (kept.pend.trans hp) (fun i hi => hw i (kept.inputs hi)) (fun h => hr (kept.inputs h))
      kept.delay
    exact ⟨u, (run_next taken).trans run, ended⟩

end Sys2Proof.Machine
end

