-- ==== Sys2Proof/Proofs/Checksum.lean ====
section
/-! PROOFS. The checksum and its command (41_checksum.md R150, R151). The bit loop is linear over xor, and on a word whose low bits
are clear it only shifts: so a byte's eight steps are a shift of what stands above it, xored with the steps of the byte alone. -/

namespace Sys2Proof.Machine

open Sys2Proof

/-! ## The loop, a byte at a time -/

/-- The steps for one more byte, from the complement of the checksum so far. -/
theorem crc32_append_byte (s : Bytes) (b : Byte) : crc32 (s ++ [b]) = crcByte (crc32 s ^^^ crcInit) b ^^^ crcInit := by
  have loop : crc32 s ^^^ crcInit = s.foldl crcByte crcInit := by
    rw [crc32, BitVec.xor_assoc, BitVec.xor_self, BitVec.xor_zero]
  rw [loop, crc32, List.foldl_append, List.foldl_cons, List.foldl_nil]

/-- Settles O9: the step is the definition's, the empty string complements the initial value, and one more byte is one more turn
of the loop. -/
theorem theChecksumFollowsTheBitSerialLoop : Obligations.TheChecksumFollowsTheBitSerialLoop :=
  ⟨fun _ => rfl, BitVec.xor_self, crc32_append_byte⟩

/-! ## The table -/

/-- The step without its branch: a shift, and the polynomial or nothing. -/
theorem crcBit_eq (c : Word) : crcBit c = (c >>> 1) ^^^ (if c.getLsbD 0 then crcPoly else 0) := by
  unfold crcBit
  split
  · rfl
  · exact BitVec.xor_zero.symm

theorem crcBit_xor (x y : Word) : crcBit (x ^^^ y) = crcBit x ^^^ crcBit y := by
  have poly (p q : Bool) : (if (p ^^ q) = true then crcPoly else 0) =
      (if p = true then crcPoly else 0) ^^^ (if q = true then crcPoly else 0) := by
    cases p <;> cases q <;> decide
  simp only [crcBit_eq, BitVec.getLsbD_xor, BitVec.ushiftRight_xor_distrib, poly]
  ac_rfl

theorem crcBit_iterate_xor (n : Nat) (x y : Word) : crcBit^[n] (x ^^^ y) = crcBit^[n] x ^^^ crcBit^[n] y := by
  induction n generalizing x y with
  | zero => rfl
  | succ n ih => simp only [Function.iterate_succ_apply, crcBit_xor, ih]

/-- While the low bits are clear no step adds the polynomial. -/
theorem crcBit_iterate_of_low_clear (n : Nat) (x : Word) (h : ∀ i < n, x.getLsbD i = false) : crcBit^[n] x = x >>> n := by
  induction n generalizing x with
  | zero => rfl
  | succ n ih =>
    have shift : crcBit x = x >>> 1 := if_neg (ne_true_of_eq_false (h 0 n.succ_pos))
    have clear (i : Nat) (hi : i < n) : (x >>> 1).getLsbD i = false := by
      rw [BitVec.getLsbD_ushiftRight]
      exact h (1 + i) (by omega)
    rw [Function.iterate_succ_apply, shift, ih _ clear, ← BitVec.shiftRight_add, Nat.add_comm]

/-- A table entry: the eight steps on its index. -/
def crcTable (b : Byte) : Word := crcBit^[8] (b.setWidth 32)

/-- The eight steps shift down what stands above the low byte. -/
theorem crcBit_iterate_high_part (c : Word) : crcBit^[8] (c ^^^ (c.setWidth 8).setWidth 32) = c >>> 8 := by
  have clear (i : Nat) (hi : i < 8) : (c ^^^ (c.setWidth 8).setWidth 32).getLsbD i = false := by
    simp [hi, show i < 32 by omega]
  have low : ((c.setWidth 8).setWidth 32 : Word) >>> 8 = 0 := by
    apply BitVec.eq_of_getLsbD_eq
    simp
  rw [crcBit_iterate_of_low_clear 8 _ clear, BitVec.ushiftRight_xor_distrib, low]
  exact BitVec.xor_zero

/-- One byte through the table: the word is its high part xored with its low byte, which is the entry's index. -/
theorem crcByte_eq_table (c : Word) (b : Byte) : crcByte c b = (c >>> 8) ^^^ crcTable (c.setWidth 8 ^^^ b) := by
  have parts : c ^^^ b.setWidth 32 =
      (c ^^^ (c.setWidth 8).setWidth 32) ^^^ (c.setWidth 8 ^^^ b).setWidth 32 := by
    rw [BitVec.setWidth_xor, BitVec.xor_assoc, ← BitVec.xor_assoc ((c.setWidth 8).setWidth 32), BitVec.xor_self,
      BitVec.zero_xor]
  rw [crcByte, parts, crcBit_iterate_xor, crcBit_iterate_high_part, crcTable]

/-- Settles O8: the two loops take every byte alike. -/
theorem theChecksumIsTheTableDrivenFunction : Obligations.TheChecksumIsTheTableDrivenFunction := by
  refine ⟨crcTable, fun _ => rfl, fun s => ?_⟩
  have step : crcByte = fun (c : Word) b => (c >>> 8) ^^^ crcTable (c.setWidth 8 ^^^ b) :=
    funext fun c => funext fun b => crcByte_eq_table c b
  rw [crc32, step]
  rfl

/-! ## The command -/

theorem exec_crc32 {s : State} (fits : s.inLenFits) :
    exec .crc32 s = .next ({ s with crc := crc32 s.input } : State).complete := if_neg (not_not.mpr fits)

theorem exec_crc32_in_len_range {s : State} (long : ¬ s.inLenFits) : exec .crc32 s = .next (s.raise .inLenRange) :=
  if_pos long

/-- Settles O7: CHECK_IN_LEN decides between the two endings, of which the successful one has CRC set before it. -/
theorem crc32SetsTheChecksumOfItsInput : Obligations.Crc32SetsTheChecksumOfItsInput := by
  refine fun s => ⟨fun fits => ?_, fun long => fails_of_raise (exec_crc32_in_len_range (not_le.mpr long))⟩
  exact ⟨_, exec_crc32 fits, State.complete_ended _, rfl, by constructor <;> rfl, by constructor <;> rfl, rfl, rfl, rfl,
    fun _ => rfl⟩

end Sys2Proof.Machine
end

