-- ==== Sys2Proof/Proofs/Cipher.lean ====
section
/-! PROOFS. Padding and the commands ENCRYPT and DECRYPT (42_cipher.md R171 to R178). UNPAD is said once for a string given by
its final byte; a padded string ends with its pad count, so UNPAD takes PAD back, as ECB decryption takes ECB encryption back. -/

namespace Sys2Proof.Machine

open Sys2Proof

/-! ## Padding -/

theorem toNat_padByte (n : Nat) : (BitVec.ofNat 8 (padLen n)).toNat = padLen n := by
  have := padLen_bounds n
  rw [BitVec.toNat_ofNat]
  omega

/-- Settles O10: what follows the string is the replicated pad byte. -/
theorem padAppendsOneToSixteenBytesOfTheirNumber : Obligations.PadAppendsOneToSixteenBytesOfTheirNumber := by
  intro s
  obtain ⟨low, high⟩ := padLen_bounds s.length
  have added : (pad s).length - s.length = padLen s.length := by simp [pad]
  refine ⟨length_pad s, List.take_left, added ▸ low, added ▸ high, fun b hb => ?_⟩
  rw [pad, List.drop_left] at hb
  rw [List.eq_of_mem_replicate hb, toNat_padByte]
  rfl

/-- UNPAD of a string with final byte `b`. -/
theorem unpad_append_byte (q : Bytes) (b : Byte) : unpad (q ++ [b]) =
    if 1 ≤ b.toNat ∧ b.toNat ≤ 16 then (q ++ [b]).take (q.length + 1 - b.toNat) else q ++ [b] := by
  have final : (q ++ [b]).getD ((q ++ [b]).length - 1) 0 = b := by simp
  rw [unpad, final, List.length_append, List.length_singleton]
  rfl

/-- Settles O11: the equation holds for shorter strings too. -/
theorem unpadLooksAtTheFinalByteOnly : Obligations.UnpadLooksAtTheFinalByteOnly := fun q b _ => unpad_append_byte q b

/-- PAD ends with its pad count. -/
theorem pad_eq_append_byte (s : Bytes) : ∃ q, pad s = q ++ [BitVec.ofNat 8 (padLen s.length)] := by
  obtain ⟨n, hn⟩ := Nat.exists_eq_add_of_le' (padLen_bounds s.length).1
  exact ⟨s ++ List.replicate n (BitVec.ofNat 8 (padLen s.length)),
    by rw [pad, List.append_assoc, ← List.replicate_succ', ← hn]⟩

/-- UNPAD takes PAD back. -/
theorem unpad_pad (s : Bytes) : unpad (pad s) = s := by
  obtain ⟨q, hq⟩ := pad_eq_append_byte s
  have length : q.length + 1 = s.length + padLen s.length := by
    simpa [pad] using (congrArg List.length hq).symm
  rw [hq, unpad_append_byte, toNat_padByte, if_pos (padLen_bounds _), length, Nat.add_sub_cancel, ← hq]
  exact List.take_left

/-- UNPAD drops at most 16 bytes. -/
theorem length_le_unpad_length (q : Bytes) : q.length ≤ (unpad q).length + 16 := by
  unfold unpad blockLen
  simp only
  split
  · rw [List.length_take]; omega
  · omega

/-! ## The commands -/

/-- What a successful ENCRYPT or DECRYPT leaves: the result in OUT and OUT_LEN, and nothing else but STATUS. -/
theorem State.storeOut_complete_spec (s : State) {bs : Bytes} (h : bs.length < 2 ^ 32) :
    Ended (s.storeOut bs).complete .none ∧ (s.storeOut bs).complete.outIs bs ∧
      SameMemoryOutside s (s.storeOut bs).complete outBase bs.length ∧ SameSettings s (s.storeOut bs).complete ∧
      SameReceived s (s.storeOut bs).complete ∧ (s.storeOut bs).complete.seq = s.seq ∧
      (s.storeOut bs).complete.crc = s.crc ∧ (s.storeOut bs).complete.fallback = s.fallback := by
  obtain ⟨out, memory⟩ := s.storeOut_spec bs h
  exact ⟨State.complete_ended _, out, memory, by constructor <;> rfl, by constructor <;> rfl, rfl, rfl, rfl⟩

theorem exec_encrypt {s : State} (fits : s.inLenFits) (room : paddedLen s.inLen.toNat ≤ s.bufSize) :
    exec .encrypt s = .next (s.storeOut s.ciphertext).complete :=
  (if_neg (not_not.mpr fits)).trans (if_neg (not_lt.mpr room))

theorem exec_encrypt_in_len_range {s : State} (long : ¬ s.inLenFits) : exec .encrypt s = .next (s.raise .inLenRange) :=
  if_pos long

theorem exec_encrypt_out_overflow {s : State} (fits : s.inLenFits) (overflow : s.bufSize < paddedLen s.inLen.toNat) :
    exec .encrypt s = .next (s.raise .outOverflow) :=
  (if_neg (not_not.mpr fits)).trans (if_pos overflow)

/-- Block j of the ciphertext is E of block j of the padded input. -/
theorem State.slice_ciphertext (s : State) {j : Nat} (h : j < s.inLen.toNat / 16 + 1) :
    slice s.ciphertext (16 * j) (16 * j + 16) =
      bytesOfBlock (blockE s.key (blockOfBytes (slice (pad s.input) (16 * j) (16 * j + 16)))) := by
  refine slice_ecb _ _ _ j ?_
  rw [length_pad, State.input_length]
  unfold paddedLen blockLen
  omega

/-- Settles O12: the result is the ciphertext, and the two checks of R174 come before it in its order. -/
theorem encryptWritesThePaddedInputBlockByBlock : Obligations.EncryptWritesThePaddedInputBlockByBlock := by
  refine fun s => ⟨fun fits room => ?_, fun long => fails_of_raise (exec_encrypt_in_len_range (not_le.mpr long)),
    fun fits overflow => fails_of_raise (exec_encrypt_out_overflow fits overflow)⟩
  have length : s.ciphertext.length = (s.inLen.toNat / 16 + 1) * 16 := s.ciphertext_length
  have size := s.bufSize_lt
  obtain ⟨ended, out, rest⟩ := s.storeOut_complete_spec (bs := s.ciphertext) (by omega)
  exact ⟨_, _, exec_encrypt fits room, ended, out, length, fun _ => s.slice_ciphertext, rest⟩

theorem exec_decrypt {s : State} (fits : s.inLenFits) (whole : decryptable s.inLen.toNat) :
    exec .decrypt s = .next (s.storeOut (unpad (ecbD s.key s.input))).complete :=
  (if_neg (not_not.mpr fits)).trans (if_neg (not_not.mpr whole))

theorem exec_decrypt_in_len_range {s : State} (long : ¬ s.inLenFits) : exec .decrypt s = .next (s.raise .inLenRange) :=
  if_pos long

theorem exec_decrypt_decrypt_len {s : State} (fits : s.inLenFits) (bad : ¬ decryptable s.inLen.toNat) :
    exec .decrypt s = .next (s.raise .decryptLen) :=
  (if_neg (not_not.mpr fits)).trans (if_pos bad)

/-- Block j of the decrypted input is D of block j of IN. -/
theorem State.slice_decrypted (s : State) {j : Nat} (h : j < s.inLen.toNat / 16) :
    slice (ecbD s.key s.input) (16 * j) (16 * j + 16) =
      bytesOfBlock (blockD s.key (blockOfBytes (s.memRead (inBase + 16 * j) 16))) := by
  have block : slice s.input (16 * j) (16 * j + 16) = s.memRead (inBase + 16 * j) 16 := by
    rw [State.input, State.slice_memRead _ _ _ _ _ (by omega), Nat.add_sub_cancel_left]
  rw [← block]
  exact slice_ecb _ _ _ j (by rwa [State.input_length])

/-- Settles O13: the result is UNPAD of the decrypted blocks, and the two checks of R177 come before it in its order. -/
theorem decryptWritesTheUnpaddedBlocks : Obligations.DecryptWritesTheUnpaddedBlocks := by
  refine fun s => ⟨fun fits nonzero whole => ?_, fun long => fails_of_raise (exec_decrypt_in_len_range (not_le.mpr long)),
    fun fits bad => fails_of_raise (exec_decrypt_decrypt_len fits fun ⟨nonzero, whole⟩ => bad.elim nonzero (· whole))⟩
  have length : (ecbD s.key s.input).length = s.inLen.toNat := by
    rw [ecbD_length (by rwa [State.input_length]), State.input_length]
  have shorter := unpad_length_le (ecbD s.key s.input)
  have size := s.bufSize_lt
  obtain ⟨ended, out, rest⟩ := s.storeOut_complete_spec (bs := unpad (ecbD s.key s.input)) (by omega)
  exact ⟨_, _, exec_decrypt fits ⟨nonzero, whole⟩, ended, length, fun _ => s.slice_decrypted, out, shorter,
    length_le_unpad_length _, rest⟩

/-! ## The round trip -/

/-- A ciphertext decrypts and unpads to the input it was made of. -/
theorem State.unpad_ecbD_ciphertext (s : State) : unpad (ecbD s.key s.ciphertext) = s.input := by
  rw [State.ciphertext, ecbD_ecbE _ _ (by rw [length_pad]; exact paddedLen_mod _), unpad_pad]

/-- A command's input is the string IN holds up to IN_LEN. -/
theorem State.input_eq_of_read {s : State} {bs : Bytes} (length : s.inLen.toNat = bs.length)
    (holds : ∀ (i : Nat) (h : i < bs.length), s.mem.read (inBase + i) = some bs[i]) : s.input = bs := by
  rw [State.input, length, State.memRead_eq_of_read holds]

/-- Settles O15: IN of `u` holds the ciphertext ENCRYPT wrote, whose length is a positive multiple of 16 that fits. -/
theorem decryptRecoversWhatEncryptWrote : Obligations.DecryptRecoversWhatEncryptWrote := by
  intro s t u fits room step key size inLen copied
  obtain rfl := Host.Outcome.next.inj ((exec_encrypt fits room).symm.trans step)
  have length : s.ciphertext.length = (s.inLen.toNat / 16 + 1) * 16 := s.ciphertext_length
  have bound := s.bufSize_lt
  obtain ⟨-, ⟨outLen, holds⟩, -⟩ := s.storeOut_complete_spec (bs := s.ciphertext) (by omega)
  rw [← inLen] at outLen copied
  have input : u.input = s.ciphertext :=
    State.input_eq_of_read outLen fun i h => (copied i (outLen ▸ h)).trans (holds i h)
  have fits' : u.inLenFits := by unfold State.inLenFits; omega
  have whole : decryptable u.inLen.toNat := by unfold decryptable blockLen; omega
  have decrypted := exec_decrypt fits' whole
  rw [input, key, s.unpad_ecbD_ciphertext] at decrypted
  obtain ⟨ended, out, -⟩ := u.storeOut_complete_spec (bs := s.input) (by rw [State.input_length]; exact s.inLen.isLt)
  exact ⟨_, decrypted, ended, out⟩

end Sys2Proof.Machine
end

