-- ==== Sys2Proof/Proofs/ResponseFrame.lean ====
section
/-! PROOFS. The response frame (30_encoding.md R102, R103): the parts of it that PARSE reads, its checks as one chain in the order
of 60_exceptions.md R264, and PARSE as one equation over the two. -/

namespace Sys2Proof.Machine

open Sys2Proof

/-! ## The parts of the response in IN -/

/-- The response's length field L (30_encoding.md R102). -/
def State.respLen (s : State) : Nat := (be32 (s.memRead (inBase + 12) 4)).toNat

theorem State.respLen_eq (s : State) : (be32 (s.memRead (inBase + 12) 4)).toNat = s.respLen := rfl

/-- The return code's length under CTRL.VERSION (00_scope.md R7). -/
def State.retOff (s : State) : Nat := if s.version = 0 then 0 else 4

/-- The response frame `IN[0 .. 16 + L)`. -/
def State.frame (s : State) : Bytes := s.memRead inBase (16 + s.respLen)

/-- The encrypted segment: the payload without the return code and the 8 trailing bytes (43_frame_codec.md R204). -/
def State.segment (s : State) : Bytes := s.memRead (inBase + 16 + s.retOff) (s.respLen - 8 - s.retOff)

/-- What the framing checks hand on when they pass. -/
def State.response (s : State) : Response where
  hdr := s.memRead inBase 16
  len := s.respLen
  pay := s.memRead (inBase + 16) s.respLen
  off := s.retOff
  seg := s.segment

@[simp] theorem State.segment_length (s : State) : s.segment.length = s.respLen - 8 - s.retOff := State.memRead_length ..

theorem State.slice_frame (s : State) {a b : Nat} (h : b ≤ 16 + s.respLen) :
    slice s.frame a b = s.memRead (inBase + a) (b - a) := s.slice_memRead _ _ _ _ h

theorem State.segment_eq_slice (s : State) : s.segment = slice s.frame (16 + s.retOff) (8 + s.respLen) := by
  rw [s.slice_frame (by omega), State.segment, Nat.add_assoc]
  congr 1
  omega

/-! ## The text of a segment -/

/-- The text PARSE writes: a segment with a brace from the first one on, any other decrypted (43_frame_codec.md R206). -/
def plaintext (k : Key) (seg : Bytes) : Bytes :=
  if braceByte ∈ seg then seg.dropWhile (· != braceByte) else unpad (ecbD k seg)

theorem plaintext_of_brace {k : Key} {seg : Bytes} (h : braceByte ∈ seg) :
    plaintext k seg = seg.dropWhile (· != braceByte) := if_pos h

theorem plaintext_of_no_brace {k : Key} {seg : Bytes} (h : braceByte ∉ seg) : plaintext k seg = unpad (ecbD k seg) :=
  if_neg h

/-- The fallback scan stops at `j` exactly when the first brace stands there. -/
theorem fallbackScan_eq_some_iff {seg : Bytes} {j : Nat} :
    fallbackScan seg = some j ↔ seg[j]? = some braceByte ∧ ∀ k, k < j → seg[k]? ≠ some braceByte := by
  rw [fallbackScan, List.findIdx?_eq_some_iff_getElem]
  constructor
  · rintro ⟨h, brace, first⟩
    exact ⟨by simpa [h] using brace, fun k hk => by simpa [hk.trans h] using first k hk⟩
  · rintro ⟨brace, first⟩
    obtain ⟨h, brace⟩ := List.getElem?_eq_some_iff.mp brace
    exact ⟨h, by simpa using brace, fun k hk => by simpa [hk.trans h] using first k hk⟩

/-- What follows the first brace, it included, is what a scan past the other bytes leaves. -/
theorem dropWhile_eq_slice {seg : Bytes} {j : Nat} (h : fallbackScan seg = some j) :
    seg.dropWhile (· != braceByte) = slice seg j seg.length := by
  obtain ⟨-, first⟩ := List.findIdx?_eq_some_iff_findIdx_eq.mp h
  simp only [bne, Bool.not_not, List.dropWhile_eq_drop_findIdx_not, first, slice]
  rw [List.take_of_length_le (by simp)]

/-- A segment PARSE takes: one with a brace, or one of a length the cipher takes. -/
abbrev Readable (seg : Bytes) : Prop := braceByte ∈ seg ∨ decryptable seg.length

theorem not_readable_iff {seg : Bytes} :
    ¬ Readable seg ↔ braceByte ∉ seg ∧ (seg.length = 0 ∨ seg.length % 16 ≠ 0) := by
  rw [Readable, not_or, decryptable, not_and_or, not_not, blockLen]

theorem segmentText_eq (k : Key) (seg : Bytes) : segmentText k seg =
    if Readable seg then .ok (plaintext k seg, decide (braceByte ∈ seg)) else .error .decryptLen := by
  unfold segmentText
  cases scan : fallbackScan seg with
  | some j =>
    have brace : braceByte ∈ seg := List.mem_of_getElem? (fallbackScan_eq_some_iff.mp scan).1
    simp [plaintext_of_brace brace, brace, dropWhile_eq_slice scan]
  | none =>
    have brace : braceByte ∉ seg := fun h => by simpa using List.findIdx?_eq_none_iff.mp scan _ h
    simp only [plaintext_of_no_brace brace, Readable, brace, false_or, ite_not, decide_false]

/-! ## The checks -/

/-- The first check that PARSE fails, in the order of 60_exceptions.md R264. -/
def State.parseError (s : State) : Option ErrCode :=
  if s.version = 3 then some .badVersion
  else if s.bufSize < s.inLen.toNat then some .inLenRange
  else if s.inLen.toNat < 16 then some .frameShort
  else if s.memRead inBase 4 ≠ prefixBytes then some .framePrefix
  else if s.respLen = 0 ∨ 2048 < s.respLen then some .frameLength
  else if s.inLen.toNat < 16 + s.respLen then some .frameShort
  else if s.respLen < s.retOff + 8 then some .frameUnderflow
  else if braceByte ∉ s.segment ∧ (s.segment.length = 0 ∨ s.segment.length % 16 ≠ 0) then some .decryptLen
  else none

/-- A response that passes every framing check. -/
structure State.WellFramed (s : State) : Prop where
  version : s.version ≠ 3
  fits : s.inLen.toNat ≤ s.bufSize
  prefix_field : s.memRead inBase 4 = prefixBytes
  short : s.respLen ≤ 2048
  whole : 16 + s.respLen ≤ s.inLen.toNat
  room : s.retOff + 8 ≤ s.respLen

theorem State.parseError_eq_none_iff {s : State} : s.parseError = none ↔ s.WellFramed ∧ Readable s.segment := by
  unfold State.parseError
  simp only [← not_readable_iff]
  constructor
  · intro h
    split_ifs at h with version long header pfx len whole room readable
    exact ⟨⟨version, by omega, not_not.mp pfx, by omega, by omega, by omega⟩, readable⟩
  · rintro ⟨⟨version, fits, pfx, short, whole, room⟩, readable⟩
    rw [if_neg version, if_neg (by omega), if_neg (by omega), if_neg (not_not.mpr pfx), if_neg (by omega), if_neg (by omega),
      if_neg (by omega), if_neg (not_not.mpr readable)]

/-- No check reports the code that stands for success. -/
theorem State.parseError_ne_some_none (s : State) : s.parseError ≠ some .none := by
  unfold State.parseError
  split_ifs <;> decide

/-! ## PARSE -/

/-- The state a PARSE leaves whose checks all pass. -/
def State.parsed (s : State) : State :=
  (s.storeResponse s.response (plaintext s.key s.segment) (decide (braceByte ∈ s.segment))).complete

/-- The state any PARSE leaves. -/
def State.afterParse (s : State) : State := s.parseError.elim s.parsed s.raise

/-- PARSE, with its checks as one chain: past CTRL.VERSION and IN_LEN the model's chain and `State.parseError` fail at the same
checks, and the last one is what the segment's text needs. -/
theorem exec_parse (s : State) : exec .parse s = .next s.afterParse := by
  unfold State.afterParse State.parseError
  by_cases v3 : s.version = 3
  · rw [if_pos v3, exec, execParse, v3]
    rfl
  obtain ⟨v, hv, -⟩ := versionOf_of_ne v3
  rw [if_neg v3, exec, execParse, hv]
  by_cases fits : s.inLenFits
  · have off : rcOff v = s.retOff := rcOff_of_versionOf hv
    simp only [if_neg (not_not.mpr fits), if_neg (not_lt.mpr fits), State.parseFrame_eq, off, s.respLen_eq,
      ← not_readable_iff, State.segment]
    split_ifs with header pfx len whole room readable
    · rfl
    · rfl
    · rfl
    · rfl
    · rfl
    · simp only [segmentText_eq, if_pos readable]; rfl
    · simp only [segmentText_eq, if_neg readable]; rfl
  · rw [if_pos (not_le.mp fits)]
    exact if_pos fits

theorem State.afterParse_of_error {s : State} {c : ErrCode} (h : s.parseError = some c) : s.afterParse = s.raise c := by
  rw [State.afterParse, h]; rfl

theorem State.afterParse_of_none {s : State} (h : s.parseError = none) : s.afterParse = s.parsed := by
  rw [State.afterParse, h]; rfl

/-- A PARSE raises the error of the first check that fails, or stores what it parsed. -/
theorem State.afterParse_cases (s : State) :
    (∃ c, c ≠ .none ∧ s.parseError = some c ∧ s.afterParse = s.raise c) ∨
      (s.parseError = none ∧ s.WellFramed ∧ Readable s.segment ∧ s.afterParse = s.parsed) := by
  cases h : s.parseError with
  | some c =>
    have nonzero : c ≠ .none := fun hc => s.parseError_ne_some_none (h.trans (congrArg some hc))
    exact .inl ⟨c, nonzero, rfl, State.afterParse_of_error h⟩
  | none =>
    obtain ⟨framed, readable⟩ := State.parseError_eq_none_iff.mp h
    exact .inr ⟨rfl, framed, readable, State.afterParse_of_none h⟩

/-- A PARSE that ends without an error has stored what it parsed. -/
theorem State.afterParse_of_err_none {s : State} (h : s.afterParse.err = .none) :
    s.WellFramed ∧ Readable s.segment ∧ s.afterParse = s.parsed := by
  rcases s.afterParse_cases with ⟨c, nonzero, -, raised⟩ | ⟨-, parsed⟩
  · rw [raised] at h
    exact absurd h nonzero
  · exact parsed

theorem plaintext_length_le {k : Key} {seg : Bytes} (h : Readable seg) : (plaintext k seg).length ≤ seg.length :=
  segmentText_ok ((segmentText_eq k seg).trans (if_pos h))

/-- What `State.storeOut_spec` says, of any state with the same OUT_LEN and memory. -/
theorem State.storeOut_spec_of_eq {s t : State} {bs : Bytes} (h : bs.length < 2 ^ 32)
    (outLen : t.outLen = (s.storeOut bs).outLen) (mem : t.mem = (s.storeOut bs).mem) :
    t.outIs bs ∧ SameMemoryOutside s t outBase bs.length := by
  rw [State.outIs, SameMemoryOutside, outLen, mem]
  exact s.storeOut_spec bs h

/-- What a PARSE leaves whose checks all pass: the text in OUT, the fields of the frame in the registers of R206, and nothing else
but STATUS. -/
theorem State.parsed_spec {s : State} (framed : s.WellFramed) (readable : Readable s.segment) :
    Ended s.parsed .none ∧ s.parsed.outIs (plaintext s.key s.segment) ∧
      s.parsed.fallback = decide (braceByte ∈ s.segment) ∧
      s.parsed.retcode = (if s.retOff = 4 then be32 (slice s.frame 16 20) else 0) ∧
      s.parsed.rxSeq = be32 (slice s.frame 4 8) ∧ s.parsed.rxCmd = be32 (slice s.frame 8 12) ∧
      s.parsed.rxCrc = be32 (slice s.frame (8 + s.respLen) (12 + s.respLen)) ∧
      s.parsed.frameLen.toNat = 16 + s.respLen ∧
      SameMemoryOutside s s.parsed outBase (plaintext s.key s.segment).length ∧ SameSettings s s.parsed ∧
      s.parsed.seq = s.seq ∧ s.parsed.crc = s.crc := by
  have short := framed.short
  have room := framed.room
  have text : (plaintext s.key s.segment).length < 2 ^ 32 := by
    have := plaintext_length_le (k := s.key) readable
    rw [s.segment_length] at this
    omega
  obtain ⟨out, memory⟩ := State.storeOut_spec_of_eq (s := s) (t := s.parsed) text rfl rfl
  have header {a b : Nat} (h : b ≤ 16) : slice s.response.hdr a b = slice s.frame a b :=
    (s.slice_memRead _ _ _ _ h).trans (s.slice_frame (by omega)).symm
  have payload {a b : Nat} (h : b ≤ s.respLen) : slice s.response.pay a b = slice s.frame (16 + a) (16 + b) := by
    rw [s.slice_frame (by omega), Nat.add_sub_add_left, ← Nat.add_assoc]
    exact s.slice_memRead _ _ _ _ h
  have settings : SameSettings s s.parsed := by constructor <;> simp [State.parsed]
  refine ⟨State.complete_ended _, out, rfl, ?retcode, ?rxSeq, ?rxCmd, ?rxCrc, ?frameLen, memory, settings,
    by simp [State.parsed], by simp [State.parsed]⟩
  case retcode =>
    have code : slice s.response.pay 0 4 = slice s.frame 16 20 := payload (a := 0) (b := 4) (by omega)
    rw [← code]; rfl
  case rxSeq => rw [← header (by omega)]; rfl
  case rxCmd => rw [← header (by omega)]; rfl
  case rxCrc =>
    have trailer := payload (a := s.respLen - 8) (b := s.respLen - 4) (by omega)
    rw [show 16 + (s.respLen - 8) = 8 + s.respLen by omega, show 16 + (s.respLen - 4) = 12 + s.respLen by omega] at trailer
    rw [← trailer]; rfl
  case frameLen =>
    show (BitVec.ofNat 32 (16 + s.respLen)).toNat = _
    rw [BitVec.toNat_ofNat]
    omega

/-- RX_CRC is the received field, unverified (43_frame_codec.md R207). -/
theorem State.rxCrc_afterParse {s : State} (ok : s.afterParse.err = .none) :
    s.afterParse.rxCrc = be32 (slice s.frame (8 + s.respLen) (12 + s.respLen)) := by
  obtain ⟨framed, readable, parsed⟩ := State.afterParse_of_err_none ok
  obtain ⟨-, -, -, -, -, -, rxCrc, -⟩ := State.parsed_spec framed readable
  rw [parsed, rxCrc]

/-! ## The obligations on one PARSE -/

/-- A response described by its frame and its segment, as O20 and O21 do, is well framed. -/
theorem State.wellFramed_of_frame {s : State} {L off : Nat} {frame seg : Bytes} (version : s.version ≠ 3)
    (ret : off = if s.version = 0 then 0 else 4) (fits : s.inLen.toNat ≤ s.bufSize) (whole : 16 + L ≤ s.inLen.toNat)
    (hframe : frame = s.memRead inBase (16 + L)) (pfx : slice frame 0 4 = prefixBytes)
    (len : (be32 (slice frame 12 16)).toNat = L) (short : L ≤ 2048) (room : off + 8 ≤ L)
    (hseg : seg = slice frame (16 + off) (8 + L)) :
    s.WellFramed ∧ s.respLen = L ∧ s.retOff = off ∧ s.frame = frame ∧ s.segment = seg := by
  have hL : s.respLen = L := by
    rw [hframe, s.slice_memRead _ _ _ _ (by omega)] at len
    exact len
  have hoff : s.retOff = off := ret.symm
  subst hL hoff hframe
  rw [State.slice_memRead _ _ _ _ _ (by omega)] at pfx
  exact ⟨⟨version, fits, pfx, short, whole, room⟩, rfl, rfl, rfl, s.segment_eq_slice.trans hseg.symm⟩

/-- A well-framed response with a readable segment is parsed. -/
theorem exec_parse_parsed {s : State} (framed : s.WellFramed) (readable : Readable s.segment) :
    exec .parse s = .next s.parsed := by
  rw [exec_parse, State.afterParse_of_none (State.parseError_eq_none_iff.mpr ⟨framed, readable⟩)]

/-- Settles O20: the text of a segment whose first brace stands at `j` is the segment from `j` on. -/
theorem parseTakesThePlaintextFallback : Obligations.ParseTakesThePlaintextFallback := by
  intro s L j off frame seg version ret fits whole hframe pfx len short room hseg brace first
  obtain ⟨framed, rfl, rfl, rfl, rfl⟩ := State.wellFramed_of_frame version ret fits whole hframe pfx len short room hseg
  have found : braceByte ∈ s.segment := List.mem_of_getElem? brace
  have text : plaintext s.key s.segment = slice s.segment j s.segment.length :=
    (plaintext_of_brace found).trans (dropWhile_eq_slice (fallbackScan_eq_some_iff.mpr ⟨brace, first⟩))
  obtain ⟨ended, out, fallback, retcode, rxSeq, rxCmd, rxCrc, frameLen, memory, rest⟩ := State.parsed_spec framed (.inl found)
  rw [text] at out memory
  rw [slice_length, min_self] at memory
  exact ⟨_, exec_parse_parsed framed (.inl found), ended, out, fallback.trans (decide_eq_true found), retcode, rxSeq, rxCmd,
    rxCrc, frameLen, memory, rest⟩

/-- Settles O21: without a brace the text is what the cipher gives. -/
theorem parseDecryptsASegmentWithoutABrace : Obligations.ParseDecryptsASegmentWithoutABrace := by
  intro s L off frame seg version ret fits whole hframe pfx len short room hseg noBrace nonzero blocks
  obtain ⟨framed, rfl, rfl, rfl, rfl⟩ := State.wellFramed_of_frame version ret fits whole hframe pfx len short room hseg
  have readable : Readable s.segment := .inr ⟨nonzero, blocks⟩
  have text : plaintext s.key s.segment = unpad (ecbD s.key s.segment) := plaintext_of_no_brace noBrace
  obtain ⟨ended, out, fallback, rest⟩ := State.parsed_spec framed readable
  rw [text] at out rest
  exact ⟨_, exec_parse_parsed framed readable, ended, out, fallback.trans (decide_eq_false noBrace), rest⟩

/-- Settles O22: the statement's chain is `State.parseError`. -/
theorem parseReportsTheFirstFailingCheck : Obligations.ParseReportsTheFirstFailingCheck := by
  rintro s n L off seg code rfl rfl rfl rfl chain
  have first : s.parseError = code := chain.symm
  cases code with
  | some c =>
    refine fails_of_raise ?_
    rw [exec_parse, State.afterParse_of_error first]
  | none =>
    refine ⟨_, exec_parse s, ?_⟩
    rw [State.afterParse_of_none first]
    exact State.complete_ended _

end Sys2Proof.Machine
end

