-- ==== Sys2Proof/Proofs/ParsePairs.lean ====
section
/-! PROOFS. Two PARSEs compared (43_frame_codec.md R207 to R209). The parts of the frame that decide the outcome end where the 8
trailing bytes begin, so what reads alike up to there is parsed alike. -/

namespace Sys2Proof.Machine

open Sys2Proof

/-- `s` with another IN_LEN and other bytes. -/
def State.reloaded (s : State) (n : Word) (m : Memory) : State := { s with inLen := n, mem := m }

/-- The response of `s.reloaded n m` is that of `s`, its 8 trailing bytes and what follows it left aside, and passes the checks on
IN_LEN alike. -/
structure State.SameResponse (s : State) (n : Word) (m : Memory) : Prop where
  fits : s.bufSize < n.toNat ↔ s.bufSize < s.inLen.toNat
  reaches : ∀ k, k ≤ 16 + s.respLen → (n.toNat < k ↔ s.inLen.toNat < k)
  bytes : ∀ i, i < 16 ∨ i < 8 + s.respLen → m.read (inBase + i) = s.mem.read (inBase + i)

/-- The results of two PARSEs that agree, RX_CRC left aside. -/
structure ParsedAlike (t v : State) : Prop where
  err : v.err = t.err
  fallback : v.fallback = t.fallback
  retcode : v.retcode = t.retcode
  rxSeq : v.rxSeq = t.rxSeq
  rxCmd : v.rxCmd = t.rxCmd
  frameLen : v.frameLen = t.frameLen
  outLen : v.outLen = t.outLen
  out : t.err = .none → ∀ i, i < t.outLen.toNat → v.mem.read (outBase + i) = t.mem.read (outBase + i)

section

variable {s : State} {n : Word} {m : Memory} (same : s.SameResponse n m)

include same

theorem State.SameResponse.memRead {a k : Nat} (h : a + k ≤ 16 ∨ a + k ≤ 8 + s.respLen) :
    (s.reloaded n m).memRead (inBase + a) k = s.memRead (inBase + a) k :=
  State.memRead_congr rfl fun i hi => by
    rw [Nat.add_assoc]
    exact same.bytes (a + i) (by omega)

theorem State.SameResponse.respLen : (s.reloaded n m).respLen = s.respLen :=
  congrArg (fun field => (be32 field).toNat) (same.memRead (.inl le_rfl))

theorem State.SameResponse.slice_frame {a b : Nat} (hab : a ≤ b) (h : b ≤ 16 ∨ b ≤ 8 + s.respLen) :
    slice (s.reloaded n m).frame a b = slice s.frame a b := by
  rw [State.slice_frame _ (by rw [same.respLen]; omega), s.slice_frame (by omega), same.memRead (by omega)]

theorem State.SameResponse.segment : (s.reloaded n m).segment = s.segment := by
  have off : (s.reloaded n m).retOff = s.retOff := rfl
  rw [State.segment, off, same.respLen, Nat.add_assoc, State.segment, Nat.add_assoc]
  by_cases room : s.retOff + 8 ≤ s.respLen
  · exact same.memRead (.inr (by omega))
  · rw [show s.respLen - 8 - s.retOff = 0 by omega]
    rfl

/-- No check tells the two apart. -/
theorem State.SameResponse.parseError : (s.reloaded n m).parseError = s.parseError := by
  have version : (s.reloaded n m).version = s.version := rfl
  have inLen : (s.reloaded n m).inLen = n := rfl
  have bufSize : (s.reloaded n m).bufSize = s.bufSize := rfl
  have off : (s.reloaded n m).retOff = s.retOff := rfl
  have pfx : (s.reloaded n m).memRead inBase 4 = s.memRead inBase 4 := same.memRead (a := 0) (.inl (by omega))
  simp only [State.parseError, version, inLen, bufSize, off, pfx, same.respLen, same.segment, same.fits,
    same.reaches 16 (by omega), same.reaches _ le_rfl]

/-- The two PARSEs agree but in RX_CRC. -/
theorem State.SameResponse.parsedAlike : ParsedAlike s.afterParse (s.reloaded n m).afterParse := by
  have errors := same.parseError
  rcases s.afterParse_cases with ⟨c, nonzero, error, raised⟩ | ⟨error, framed, readable, parsed⟩
  · rw [raised, State.afterParse_of_error (errors.trans error)]
    exact ⟨rfl, rfl, rfl, rfl, rfl, rfl, rfl, fun h => absurd h nonzero⟩
  · have error' := errors.trans error
    obtain ⟨framed', readable'⟩ := State.parseError_eq_none_iff.mp error'
    rw [parsed, State.afterParse_of_none error']
    have room := framed.room
    have key : (s.reloaded n m).key = s.key := rfl
    have off : (s.reloaded n m).retOff = s.retOff := rfl
    obtain ⟨-, ⟨outLen, out⟩, fallback, retcode, rxSeq, rxCmd, -, frameLen, -⟩ := State.parsed_spec framed readable
    obtain ⟨-, ⟨outLen', out'⟩, fallback', retcode', rxSeq', rxCmd', -, frameLen', -⟩ := State.parsed_spec framed' readable'
    simp only [key, same.segment] at outLen' out' fallback'
    constructor
    case err => rfl
    case fallback => rw [fallback', fallback]
    case retcode =>
      rw [retcode', retcode, off]
      split_ifs with code
      · rw [same.slice_frame (by omega) (.inr (by omega))]
      · rfl
    case rxSeq => rw [rxSeq', rxSeq, same.slice_frame (by omega) (.inl (by omega))]
    case rxCmd => rw [rxCmd', rxCmd, same.slice_frame (by omega) (.inl (by omega))]
    case frameLen => exact BitVec.eq_of_toNat_eq (by rw [frameLen', frameLen, same.respLen])
    case outLen => exact BitVec.eq_of_toNat_eq (outLen'.trans outLen.symm)
    case out =>
      intro _ i hi
      rw [outLen] at hi
      rw [out' i hi, out i hi]

end

/-- Settles O24: IN agrees up to the end of the frame, so RX_CRC is the same field too. -/
theorem parseIgnoresBytesAfterTheFrame : Obligations.ParseIgnoresBytesAfterTheFrame := by
  rintro s u L m n hL whole whole' fits fits' bytes rfl
  obtain rfl : L = s.respLen := hL
  have same : s.SameResponse n m :=
    { fits := by omega
      reaches := fun k hk => by omega
      bytes := fun i hi => bytes i (by omega) }
  have frame : (s.reloaded n m).frame = s.frame := by
    rw [State.frame, same.respLen]
    exact State.memRead_congr rfl bytes
  obtain ⟨err, fallback, retcode, rxSeq, rxCmd, frameLen, outLen, out⟩ := same.parsedAlike
  have rxCrc : (s.reloaded n m).afterParse.rxCrc = s.afterParse.rxCrc := by
    rcases s.afterParse_cases with ⟨c, -, error, raised⟩ | ⟨-, framed, readable, parsed⟩
    · rw [raised, State.afterParse_of_error (same.parseError.trans error)]
      rfl
    · have ok : s.afterParse.err = .none := congrArg State.err parsed
      rw [State.rxCrc_afterParse ok, State.rxCrc_afterParse (err.trans ok), frame, same.respLen]
  refine ⟨_, _, exec_parse s, exec_parse _, err, fallback, ⟨retcode, rxSeq, rxCmd, rxCrc, frameLen⟩, outLen,
    fun ok => ⟨?_, out ok⟩⟩
  obtain ⟨framed, readable, parsed⟩ := State.afterParse_of_err_none ok
  obtain ⟨-, -, -, -, -, -, -, length, -⟩ := State.parsed_spec framed readable
  rw [parsed, length]

/-- Settles O25: the trailing 8 bytes reach RX_CRC and nothing else. -/
theorem parseDoesNotVerifyTheTrailer : Obligations.ParseDoesNotVerifyTheTrailer := by
  rintro s u L m hL trailer bytes rfl
  obtain rfl : L = s.respLen := hL
  have same : s.SameResponse s.inLen m :=
    { fits := Iff.rfl
      reaches := fun _ _ => Iff.rfl
      bytes := fun i hi => bytes i (by omega) }
  obtain ⟨err, fallback, retcode, rxSeq, rxCmd, frameLen, outLen, out⟩ := same.parsedAlike
  have field (s : State) : slice s.frame (8 + s.respLen) (12 + s.respLen) = s.memRead (inBase + 8 + s.respLen) 4 := by
    rw [s.slice_frame (by omega), Nat.add_assoc]
    congr 1
    omega
  refine ⟨_, _, exec_parse s, exec_parse _, err, fallback, retcode, rxSeq, rxCmd, frameLen, outLen,
    fun ok => ⟨?_, ?_, out ok⟩⟩
  · rw [State.rxCrc_afterParse ok, field]
  · have ok' : (s.reloaded s.inLen m).afterParse.err = .none := err.trans ok
    have received := State.rxCrc_afterParse ok'
    rw [field, same.respLen] at received
    exact received

/-! ## V3_4 and V3_5 -/

/-- `s` with another CTRL.VERSION. -/
def State.withVersion (s : State) (v : BitVec 2) : State := { s with version := v }

section

variable (s : State) {v w : BitVec 2} (hv : v = 1 ∨ v = 2) (hw : w = 1 ∨ w = 2)

include hv in
theorem State.retOff_withVersion : (s.withVersion v).retOff = 4 := by
  rcases hv with rfl | rfl <;> rfl

include hv hw

theorem State.segment_withVersion : (s.withVersion w).segment = (s.withVersion v).segment := by
  rw [State.segment, s.retOff_withVersion hw, State.segment, s.retOff_withVersion hv]
  rfl

theorem State.response_withVersion : (s.withVersion w).response = (s.withVersion v).response := by
  rw [State.response, s.retOff_withVersion hw, s.segment_withVersion hv hw, State.response, s.retOff_withVersion hv]
  rfl

theorem State.parseError_withVersion : (s.withVersion w).parseError = (s.withVersion v).parseError := by
  have w3 : w ≠ 3 := by rcases hw with rfl | rfl <;> decide
  have v3 : v ≠ 3 := by rcases hv with rfl | rfl <;> decide
  rw [State.parseError, if_neg (show (s.withVersion w).version ≠ 3 from w3), s.retOff_withVersion hw,
    s.segment_withVersion hv hw, State.parseError, if_neg (show (s.withVersion v).version ≠ 3 from v3),
    s.retOff_withVersion hv]
  rfl

/-- PARSE treats the two versions alike: the outcomes differ in CTRL.VERSION alone. -/
theorem State.afterParse_withVersion : (s.withVersion w).afterParse = (s.withVersion v).afterParse.withVersion w := by
  have errors := s.parseError_withVersion hv hw
  cases h : (s.withVersion v).parseError with
  | some c =>
    rw [State.afterParse_of_error h, State.afterParse_of_error (errors.trans h)]
    rfl
  | none =>
    rw [State.afterParse_of_none h, State.afterParse_of_none (errors.trans h), State.parsed,
      s.response_withVersion hv hw, s.segment_withVersion hv hw, State.parsed]
    rfl

end

/-- Settles O23: the same 4-byte return code stands in both, and a V3_3 response has none. -/
theorem v34AndV35ResponsesAreParsedAlike : Obligations.V34AndV35ResponsesAreParsedAlike := by
  refine ⟨fun s => ⟨(s.withVersion 1).afterParse, ?_, ?_⟩, fun s t step ok => ?_⟩
  · exact (exec_parse _).trans (congrArg _ (s.afterParse_withVersion (.inl rfl) (.inl rfl)))
  · exact (exec_parse _).trans (congrArg _ (s.afterParse_withVersion (.inl rfl) (.inr rfl)))
  · obtain rfl := Host.Outcome.next.inj ((exec_parse s).symm.trans step)
    obtain ⟨framed, readable, parsed⟩ := State.afterParse_of_err_none ok
    have room := framed.room
    obtain ⟨-, -, -, retcode, -⟩ := State.parsed_spec framed readable
    rw [parsed, retcode, State.retOff]
    by_cases v33 : s.version = 0
    · rw [if_pos v33, if_pos v33]; rfl
    · rw [State.retOff, if_neg v33] at room
      have code : slice s.frame 16 20 = s.memRead (inBase + 16) 4 := s.slice_frame (by omega)
      rw [if_neg v33, if_neg v33, if_pos rfl, code]

end Sys2Proof.Machine
end

