-- ==== Sys2Proof/Proofs/RequestAsResponse.lean ====
section
/-! PROOFS. A request handed to PARSE (43_frame_codec.md R210). A V3_3 request has the layout of a response without a return code;
in a V3_4 or V3_5 request the version header stands where a response has its length. -/

namespace Sys2Proof.Machine

open Sys2Proof

/-- The first bytes of a slice. -/
theorem slice_slice_prefix (s : Bytes) {a b n : Nat} (h : a + n ≤ b) : slice (slice s a b) 0 n = slice s a (a + n) := by
  rw [slice, slice, List.drop_zero, List.take_take, slice]
  congr 1
  omega

/-- A command whose input is a copy of another's result has that result as its input. -/
theorem State.input_of_copied {t u : State} {f : Bytes} (out : t.outIs f) (inLen : u.inLen = t.outLen)
    (copied : ∀ i, i < t.outLen.toNat → u.mem.read (inBase + i) = t.mem.read (outBase + i)) : u.input = f := by
  obtain ⟨outLen, holds⟩ := out
  exact State.input_eq_of_read ((congrArg BitVec.toNat inLen).trans outLen)
    fun i h => (copied i (outLen ▸ h)).trans (holds i h)

theorem State.memRead_eq_slice_input (u : State) {a b : Nat} (h : b ≤ u.inLen.toNat) :
    u.memRead (inBase + a) (b - a) = slice u.input a b := (u.slice_memRead _ _ _ _ h).symm

/-- A V3_3 request of at most 2064 bytes is a well-framed response under V3_3, whose segment is the request's ciphertext. -/
theorem RequestLayout.wellFramed_v33 {q : Word} {c f : Bytes} {u : State} (layout : RequestLayout .v33 q c f)
    (version : u.version = 0) (input : u.input = f) (fits : u.inLen.toNat ≤ u.bufSize) (short : c.length + 24 ≤ 2064) :
    u.WellFramed ∧ u.respLen = c.length + 8 ∧ u.frame = f ∧ u.segment = c := by
  obtain ⟨length, pfx, -, -, -, len, payload, -, -, -⟩ := layout
  have start : hdrOut .v33 = 16 := rfl
  rw [start] at length len payload
  rw [← input, State.input_length] at length
  rw [← input] at pfx len payload
  have respLen : (be32 (slice u.input 12 16)).toNat = c.length + 8 := by
    rw [len, be32_toBE32, BitVec.toNat_ofNat]
    omega
  have hframe : u.input = u.memRead inBase (16 + (c.length + 8)) := by
    rw [State.input, show u.inLen.toNat = 16 + (c.length + 8) by omega]
  have off : 0 = if u.version = 0 then 0 else 4 := (if_pos version).symm
  obtain ⟨framed, hL, -, frame, segment⟩ := State.wellFramed_of_frame (by rw [version]; decide) off fits (by omega) hframe pfx
    respLen (by omega) (by omega) rfl
  refine ⟨framed, hL, frame.trans input, segment.trans ?_⟩
  rw [show 8 + (c.length + 8) = 16 + c.length by omega]
  exact payload

/-- Settles O26: the segment is the ciphertext, which holds a brace or decrypts to the input. -/
theorem parseRecoversAV33FrameThatBuildWrote : Obligations.ParseRecoversAV33FrameThatBuildWrote := by
  intro s t u c version fits room short step hc version' key size inLen copied
  obtain rfl : c = s.ciphertext := hc
  have length : s.ciphertext.length = (s.inLen.toNat / 16 + 1) * 16 := s.ciphertext_length
  have hv : versionOf s.version = some .v33 := by rw [version]; rfl
  obtain ⟨t', f, step', layout, -, out, crc, -⟩ := build_writes_request hv fits room
  obtain rfl := Host.Outcome.next.inj (step'.symm.trans step)
  have input := State.input_of_copied out inLen copied
  have start : hdrOut .v33 = 16 := rfl
  have flen := layout.length
  have outLen := out.1
  obtain ⟨framed, respLen, frame, segment⟩ :=
    layout.wellFramed_v33 version' input (by rw [inLen, outLen, flen]; omega) (by omega)
  have readable : Readable u.segment := by
    rw [segment]
    exact .inr (by unfold decryptable blockLen; omega)
  obtain ⟨ended, text, fallback, retcode, rxSeq, rxCmd, rxCrc, frameLen, -⟩ := State.parsed_spec framed readable
  rw [frame, layout.seq_field, be32_toBE32] at rxSeq
  rw [frame, layout.cmd_field, be32_toBE32] at rxCmd
  rw [frame, respLen, show 8 + (s.ciphertext.length + 8) = hdrOut .v33 + s.ciphertext.length by omega,
    show 12 + (s.ciphertext.length + 8) = hdrOut .v33 + 4 + s.ciphertext.length by omega, layout.crc_field, be32_toBE32]
    at rxCrc
  rw [State.retOff, if_pos version', if_neg (by decide)] at retcode
  rw [segment] at text fallback
  have frameLen' : u.parsed.frameLen = t'.outLen := BitVec.eq_of_toNat_eq (by rw [frameLen, respLen, outLen, flen]; omega)
  refine ⟨_, exec_parse_parsed framed readable, ended, rxSeq, rxCrc.trans crc.symm, frameLen', retcode, rxCmd, ?_⟩
  split_ifs with brace
  · rw [plaintext_of_brace brace] at text
    exact ⟨fallback.trans (decide_eq_true brace), text⟩
  · rw [plaintext_of_no_brace brace, key, s.unpad_ecbD_ciphertext] at text
    exact ⟨fallback.trans (decide_eq_false brace), text⟩

/-- A length field that is 0 or above 2048 is the error of a frame whose header is whole and right. -/
theorem State.parseError_frame_length {s : State} (version : s.version ≠ 3) (fits : s.inLen.toNat ≤ s.bufSize)
    (header : 16 ≤ s.inLen.toNat) (pfx : s.memRead inBase 4 = prefixBytes) (len : s.respLen = 0 ∨ 2048 < s.respLen) :
    s.parseError = some .frameLength := by
  rw [State.parseError, if_neg version, if_neg (not_lt.mpr fits), if_neg (not_lt.mpr header), if_neg (not_not.mpr pfx),
    if_pos len]

/-- Settles O27: the version header reads as a length above 2048. -/
theorem parseRejectsAV34OrV35Request : Obligations.ParseRejectsAV34OrV35Request := by
  intro s t u which fits room step version' size inLen copied
  have named : ∃ v, versionOf s.version = some v ∧ hdrOut v = 32 ∧ 2048 < (be32 (slice (versionHeader v) 0 4)).toNat := by
    rcases which with version | version <;> rw [version]
    · exact ⟨.v34, rfl, rfl, by decide⟩
    · exact ⟨.v35, rfl, rfl, by decide⟩
  obtain ⟨v, hv, start, long⟩ := named
  obtain ⟨t', f, step', layout, -, out, -⟩ := build_writes_request hv fits (by rw [start]; exact room)
  obtain rfl := Host.Outcome.next.inj (step'.symm.trans step)
  have input := State.input_of_copied out inLen copied
  have length := layout.length
  have inputLength := u.input_length
  rw [input] at inputLength
  have paddedLength : s.ciphertext.length = (s.inLen.toNat / 16 + 1) * 16 := s.ciphertext_length
  have pfx : u.memRead inBase 4 = prefixBytes := by
    rw [← layout.prefix_field, ← input]
    exact u.memRead_eq_slice_input (a := 0) (b := 4) (by omega)
  have respLen : u.respLen = (be32 (slice (versionHeader v) 0 4)).toNat := by
    have field := u.memRead_eq_slice_input (a := 12) (b := 16) (by omega)
    rw [input] at field
    rw [State.respLen, field, ← layout.header_field, slice_slice_prefix _ (by omega)]
  have error := State.parseError_frame_length version' (by omega) (by omega) pfx (.inr (respLen ▸ long))
  exact fails_of_raise ((exec_parse u).trans (congrArg _ (State.afterParse_of_error error)))

end Sys2Proof.Machine
end

