-- ==== Sys2Proof/Proofs/Exceptions.lean ====
section
/-! PROOFS. Exceptions (60_exceptions.md): a command ends in one of two ways, the error completion or `complete()`; BUILD's errors
in their order; and where a step of the model stops. -/

namespace Sys2Proof.Machine

open Sys2Proof

/-! ## The two endings of a command -/

section

variable {i : Instr} {s t : State}

/-- A command ends by raising an error on the state it found, or by completing over its results. -/
theorem exec_raises_or_completes (i : Instr) (s : State) :
    (∃ c, c ≠ .none ∧ exec i s = .next (s.raise c)) ∨ ∃ u : State, exec i s = .next u.complete ∧ u.ie = s.ie := by
  rcases exec_cases i s with raised | ⟨-, e⟩ | ⟨-, e⟩ | ⟨-, bs, -, e⟩ | ⟨-, bs, c, -, e⟩ | ⟨-, r, bs, fb, -, -, e⟩
  · exact .inl raised
  · exact .inr ⟨_, e, rfl⟩
  · exact .inr ⟨_, e, rfl⟩
  · exact .inr ⟨_, e, rfl⟩
  · exact .inr ⟨_, e, rfl⟩
  · exact .inr ⟨_, e, rfl⟩

/-- A command that ends with an error did nothing but raise it. -/
theorem eq_raise_of_exec_err (ht : exec i s = .next t) (herr : t.err ≠ .none) : t = s.raise t.err := by
  rcases exec_raises_or_completes i s with ⟨c, -, e⟩ | ⟨u, e, -⟩ <;> obtain rfl := Host.Outcome.next.inj (e.symm.trans ht)
  · rfl
  · exact absurd u.complete_err herr

/-- With DONE set, the interrupt's level is its enable (60_exceptions.md R266). -/
theorem State.irq_of_done (h : t.done = true) : t.irq = t.ie := by rw [State.irq, h, Bool.and_true]

end

/-- Settles O28: both endings clear PEND, set DONE and keep IE. -/
theorem everyCommandEndsAndRaisesTheInterrupt : Obligations.EveryCommandEndsAndRaisesTheInterrupt := by
  intro i s
  rcases exec_raises_or_completes i s with ⟨c, -, e⟩ | ⟨u, e, ie⟩
  · exact ⟨_, e, s.raise_pend c, s.raise_done c, State.irq_of_done (s.raise_done c)⟩
  · exact ⟨_, e, u.complete_pend, u.complete_done, (State.irq_of_done u.complete_done).trans ie⟩

/-- Settles O29: the end state is the error completion of the state before. -/
theorem anErrorChangesOnlyStatus : Obligations.AnErrorChangesOnlyStatus := by
  intro i s t ht herr
  rw [eq_raise_of_exec_err ht herr]
  exact ⟨s.raise_ended t.err, s.raise_onlyStatus t.err⟩

/-- Settles O14: the numbers are `ErrCode.code`'s, and the read answers STATUS, whose ERR field is the code's number. -/
theorem errorCodesAreNumberedAsListed : Obligations.ErrorCodesAreNumberedAsListed := by
  refine ⟨rfl, rfl, rfl, rfl, rfl, rfl, rfl, rfl, rfl, rfl, fun i s t code _ ended => ?_⟩
  rw [t.readData_status, t.statusWord_err, ended.err]

/-! ## BUILD's errors -/

section

variable {s : State} {v : Version}

theorem exec_build_bad_version (hv : versionOf s.version = none) : exec .build s = .next (s.raise .badVersion) := by
  simp only [exec, execBuild, hv]

theorem exec_build_in_len_range (hv : versionOf s.version = some v) (long : ¬ s.inLenFits) :
    exec .build s = .next (s.raise .inLenRange) := by
  simp only [exec, execBuild, hv]
  rw [if_pos long]

/-- The frame BUILD makes room for is the header, the padded input and the 8 bytes of the CRC and suffix fields. -/
theorem exec_build_out_overflow (hv : versionOf s.version = some v) (fits : s.inLenFits)
    (overflow : s.bufSize < hdrOut v + 8 + paddedLen s.inLen.toNat) : exec .build s = .next (s.raise .outOverflow) := by
  simp only [exec, execBuild, hv]
  rw [if_neg (not_not.mpr fits), if_pos (by unfold trailerLen; omega)]

end

/-- Settles O19: the three checks in the order of R264, the last with the header's length of each version. -/
theorem buildErrorsComeInOrder : Obligations.BuildErrorsComeInOrder := by
  refine fun s => ⟨fun version => ?_, fun version long => ?_, fun version fits overflow => ?_, fun which fits overflow => ?_⟩
  · exact fails_of_raise (exec_build_bad_version (by rw [version, versionOf_three]))
  · obtain ⟨v, hv, -⟩ := versionOf_of_ne version
    exact fails_of_raise (exec_build_in_len_range hv (not_le.mpr long))
  · have hv : versionOf s.version = some .v33 := by rw [version]; rfl
    exact fails_of_raise (exec_build_out_overflow hv fits overflow)
  · have named : ∃ v, versionOf s.version = some v ∧ hdrOut v = 32 := by
      rcases which with version | version <;> rw [version]
      · exact ⟨.v34, rfl, rfl⟩
      · exact ⟨.v35, rfl, rfl⟩
    obtain ⟨v, hv, start⟩ := named
    exact fails_of_raise (exec_build_out_overflow hv fits (by rw [start]; exact overflow))

/-! ## Where a step stops -/

section

variable {s t : State}

/-- The outside's turn brings no new input. -/
theorem State.outsideTurn_inputs_subset (ht : s.outsideTurn = .next t) : t.inputs ⊆ s.inputs := by
  rcases State.outsideTurn_next ht with ⟨-, rfl⟩ | ⟨i, rest, w, off, hi, -, rfl⟩ | ⟨i, rest, w, off, data, hi, -, rfl⟩ |
    ⟨rest, off, mask, value, -, -, rfl⟩ | ⟨rest, hi, rfl⟩
  · exact List.Subset.refl _
  · exact hi ▸ List.subset_cons_self i rest
  · rw [(State.hostWrite_inputs _ w off data).1, hi]
    exact List.subset_cons_self i rest
  · exact List.Subset.refl _
  · rw [hi]
    exact List.subset_cons_self _ rest

/-- The outside's turn leaves the inputs inside the window, where it found them. -/
theorem State.outsideTurn_keeps_window (hw : s.InputsInWindow) : ∃ t, s.outsideTurn = .next t ∧ t.InputsInWindow := by
  obtain ⟨t, ht⟩ := State.outsideTurn_in_window hw
  exact ⟨t, ht, fun i hi => hw i (State.outsideTurn_inputs_subset ht hi)⟩

end

/-- The model stops at an access outside the window (20_memory.md R61; log 7). -/
theorem State.hostAccess_outside_window (s : State) (w : Width) {off : Nat} (data : Word) (h : 0x3000 ≤ off) :
    s.hostAccess (.read w off) = .fault (.outsideWindow off) ∧
      s.hostAccess (.write w off data) = .fault (.outsideWindow off) :=
  ⟨if_neg (not_lt.mpr h), if_neg (not_lt.mpr h)⟩

/-- Settles O58: the engine's step always answers and takes no input, and the outside's stops at the window's end only. -/
theorem stepsStopOnlyOutsideTheWindow : Obligations.StepsStopOnlyOutsideTheWindow := by
  refine ⟨fun s hw => ?_, fun s w _ data h => s.hostAccess_outside_window w data h⟩
  rcases step_cases s with ⟨w, -, -, e⟩ | ⟨w, n, -, -, e⟩ | ⟨-, e⟩ <;> rw [e]
  · obtain ⟨t, taken, -, -, inputs, -⟩ := engineStep_next w s
    exact ⟨t, taken, fun i hi => hw i (inputs ▸ hi)⟩
  · exact State.outsideTurn_keeps_window (s := { s with delay := n }) hw
  · exact State.outsideTurn_keeps_window hw

end Sys2Proof.Machine
end

