-- ==== Sys2Proof/Proofs/Reset.lean ====
section
/-! PROOFS. Reset (70_reset_and_hazards.md R290, R291): the registers after the platform's reset of any state, the state after
reset as a case of it, and its legality for every BUF_SIZE. -/

namespace Sys2Proof.Machine

open Sys2Proof

/-! ## The platform's reset -/

section

variable (s : State)

theorem State.platformReset_busy : s.platformReset.busy = false := by
  rw [State.busy, State.platformReset_pend, Option.isSome_none]

/-- All fields of CTRL are 0. -/
theorem State.platformReset_ctrlWord : s.platformReset.ctrlWord = 0 := by
  rw [State.ctrlWord, State.platformReset_ie, State.platformReset_version]
  decide

/-- All fields of STATUS are 0. -/
theorem State.platformReset_statusWord : s.platformReset.statusWord = 0 := by
  rw [State.statusWord, State.platformReset_err, State.platformReset_werr, State.platformReset_fallback,
    State.platformReset_done, State.platformReset_busy]
  decide

theorem State.platformReset_irq : s.platformReset.irq = false := by
  rw [State.irq, State.platformReset_done, Bool.and_false]

theorem State.platformReset_key_getElem (i : Fin 16) : s.platformReset.key[i] = 0 := by
  rw [State.platformReset_key]
  exact Vector.getElem_replicate i.isLt

theorem State.platformReset_mem_read (x : Nat) : s.platformReset.mem.read x = none := by
  rw [State.platformReset_mem, Memory.read_nil]

theorem State.serve_reset : s.serve .reset = .next s.platformReset := rfl

end

/-- Settles O57: the state that a reset leaves is `platformReset`, whose fields do not depend on what was pending. -/
theorem aPlatformResetAbandonsThePendingCommand : Obligations.APlatformResetAbandonsThePendingCommand := fun s =>
  ⟨s.platformReset, s.serve_reset, s.platformReset_pend, s.platformReset_ctrlWord, s.platformReset_statusWord,
    s.platformReset_inLen, s.platformReset_outLen, s.platformReset_seq, s.platformReset_crc, s.platformReset_retcode,
    s.platformReset_rxSeq, s.platformReset_rxCmd, s.platformReset_rxCrc, s.platformReset_frameLen, s.platformReset_param,
    s.platformReset_key_getElem, s.platformReset_irq, s.platformReset_inputs, s.platformReset_mem_read⟩

/-! ## The state after reset -/

/-- The state after reset is a fixed point of the platform's reset. -/
theorem State.reset_platformReset : State.reset.platformReset = State.reset := rfl

/-- PARAM holds the default BUF_SIZE (log 1). -/
theorem State.reset_param : State.reset.param = 0x1000 := rfl

/-- Settles O56: what the platform's reset gives every state, read at its fixed point; PARAM, which it keeps, stands alone. -/
theorem resetLeavesTheStatedValues : Obligations.ResetLeavesTheStatedValues := by
  obtain ⟨t, ht, pend, ctrl, status, inLen, outLen, seq, crc, retcode, rxSeq, rxCmd, rxCrc, frameLen, -, key, irq, -,
    mem⟩ := aPlatformResetAbandonsThePendingCommand State.reset
  rw [State.serve_reset, State.reset_platformReset] at ht
  obtain rfl := Host.Outcome.next.inj ht
  exact ⟨ctrl, status, inLen, outLen, seq, crc, retcode, rxSeq, rxCmd, rxCrc, frameLen, State.reset_param,
    key, pend, irq, mem⟩

/-- With nothing pending, no result and no byte stored, only BUF_SIZE has to be checked. -/
theorem State.reset_legal_of_param {param : Word} (low : 2064 ≤ param.toNat) (high : param.toNat ≤ 4096) :
    ({ State.reset with param := param } : State).Legal where
  bufSize_low := low
  bufSize_high := high
  mem_wf := State.reset_mem_wf
  mem_in_buffers := fun _ hc => absurd hc List.not_mem_nil
  busy_status := fun hb => absurd hb Bool.false_ne_true
  fallback_err := fun hf => absurd hf Bool.false_ne_true
  outLen_le := Nat.zero_le _
  out_written := fun i hi => absurd hi (Nat.not_lt_zero i)
  frameLen_le := Nat.zero_le _

/-- Settles O59: every BUF_SIZE that R8 allows fits in PARAM as it is, the default among them. -/
theorem resetIsLegal : Obligations.ResetIsLegal := by
  refine ⟨State.reset_legal_of_param (param := State.reset.param) ?_ ?_, fun n low high => ?_⟩
  · rw [State.reset_param]
    decide
  · rw [State.reset_param]
    decide
  · have size : (BitVec.ofNat 32 n).toNat = n := by rw [BitVec.toNat_ofNat, Nat.mod_eq_of_lt (by omega)]
    exact State.reset_legal_of_param (size.symm ▸ low) (size.symm ▸ high)

end Sys2Proof.Machine
end
